-- ==== Sys2Proof/Word.lean ====
section
/-! DEFINITION. The word types of KECCAK_CORE: a byte of a stream, a 32-bit word of a frame or a register, a lane. -/

namespace Sys2Proof

/-- A byte of a frame, a message or a response (00_scope.md R11). -/
abbrev Byte := BitVec 8

/-- A 32-bit header word, argument word or register value (30_encoding.md R70, R74; 10_state.md R28). -/
abbrev Word := BitVec 32

/-- A lane of the sponge state (10_state.md R21). A lane has the width `w` of the active configuration, at most 64 bits.
It is held in 64 bits with every bit from `w` up equal to 0, the document's "masked to wmod = 2^w−1". -/
abbrev Lane := BitVec 64

end Sys2Proof
end

