-- ==== Sys2Proof/Config.lean ====
section
/-! DEFINITION. What an implementation of KECCAK_CORE fixes (00_scope.md R7). The spec leaves no value open that a
command can show (93_implementation_defined.md section 1 ends so), so there is no free value here. -/

namespace Sys2Proof

/-- The hardwired value of register 6, ID: "KC" and command-set version 1 (10_state.md R30). -/
def Config.idRegister : Word := 0x4B430001

/-- The widest lane INIT admits, in bits (43_sponge_control.md R172, check 3). -/
def Config.maxWordSize : Nat := 64

/-- N_MAX, the largest output size in bits (00_scope.md R7). -/
def Config.nMax : Nat := 2 ^ 32 - 1

/-- LEN_MAX, the largest UPDATE or DIGEST payload in bytes (00_scope.md R7). -/
def Config.lenMax : Nat := 2 ^ 32 - 1

/-- BUF_CAP, the bytes a message buffer must be able to hold under bitrate `r` and state size `b` (00_scope.md R7). -/
def Config.bufCap (r b : Nat) : Nat := r * b / 8 - 1

end Sys2Proof
end

