-- ==== Sys2Proof/Syntax.lean ====
section
/-! DEFINITION. The commands of the KCC command set, one constructor per row of spec/opcode_table.json. -/

namespace Sys2Proof

/-- A command (30_encoding.md R72). Argument words are the 32-bit words of the frame (R74); a payload is the list of
its bytes in transmission order (R75), and its LEN word is the length of that list. -/
inductive Instr where
  /-- INIT: bitrate, capacity and output size in bits (43_sponge_control.md R170). -/
  | init (r c n : Word)
  /-- UPDATE: the chunk (44_sponge_absorber.md R191). -/
  | update (chunk : List Byte)
  /-- DIGEST: the last chunk, empty for none (45_sponge_squeezer.md R212). -/
  | digest (lastChunk : List Byte)
  /-- SQUEEZE (45_sponge_squeezer.md R213). -/
  | squeeze
  /-- SIMPLE_SQUEEZE: a count of permutations (45_sponge_squeezer.md R214). -/
  | simpleSqueeze (times : Word)
  /-- FAST_SQUEEZE: a count of digest-equivalents (45_sponge_squeezer.md R215). -/
  | fastSqueeze (times : Word)
  /-- READ_REG: a register number (43_sponge_control.md R173). -/
  | readReg (regnum : Word)
  deriving DecidableEq, Repr

end Sys2Proof
end

