-- ==== Sys2Proof/WellFormed.lean ====
section
/-! DEFINITION. Which commands a frame can carry. -/

namespace Sys2Proof

/-- A command that has a frame: its payload's length fits the 32-bit LEN word (30_encoding.md R74, R75). Every
argument word is 32 bits wide by its type, and each of its values has a frame (the checks on values are the commands'
own, R74). -/
def Instr.wellFormed : Instr → Bool
  | .init _ _ _ => true
  | .update chunk => decide (chunk.length ≤ Config.lenMax)
  | .digest lastChunk => decide (lastChunk.length ≤ Config.lenMax)
  | .squeeze => true
  | .simpleSqueeze _ => true
  | .fastSqueeze _ => true
  | .readReg _ => true

end Sys2Proof
end

