-- ==== Sys2Proof/Decode.lean ====
section
/-! DEFINITION. The frame decoder and the encoder (30_encoding.md R70 to R77), with the byte-order helpers they and
the machine use. -/

namespace Sys2Proof

/-- `le_k(v)`: the `k` little-endian bytes of `v` (00_scope.md R11). -/
def leBytes : Nat → Nat → List Byte
  | 0, _ => []
  | k + 1, v => BitVec.ofNat 8 v :: leBytes k (v / 256)

/-- `le(M)`: the natural number whose little-endian bytes are `M` (00_scope.md R11). -/
def leNat : List Byte → Nat
  | [] => 0
  | b :: bs => b.toNat + 256 * leNat bs

/-- `zeros(k)`: `k` bytes of 0x00 (00_scope.md R11). -/
def zeros (k : Nat) : List Byte := List.replicate k 0

/-- The four bytes of a 32-bit word on the wire, least significant first (30_encoding.md R70). -/
def wordBytes (v : Word) : List Byte := leBytes 4 v.toNat

/-- Take one 32-bit word off the front of a byte stream, if the stream holds its four bytes (30_encoding.md R70). -/
def takeWord : List Byte → Option (Word × List Byte)
  | b0 :: b1 :: b2 :: b3 :: rest => some (BitVec.ofNat 32 (leNat [b0, b1, b2, b3]), rest)
  | _ => none

/-- Field OPC, bits [7:0] of a header word (30_encoding.md R71). -/
def headerOpc (h : Word) : BitVec 8 := h.extractLsb' 0 8

/-- Field RSVD, bits [31:8] of a header word (30_encoding.md R71). -/
def headerRsvd (h : Word) : BitVec 24 := h.extractLsb' 8 24

/-- The frame formats (30_encoding.md R73). -/
inductive Format where
  /-- The header alone. -/
  | fmtH
  /-- The header and one argument word. -/
  | fmtA1
  /-- The header and three argument words. -/
  | fmtA3
  /-- The header, LEN, and LEN payload bytes. -/
  | fmtD
  /-- An illegal header. -/
  | fmtIll
  deriving DecidableEq, Repr

/-- The format a header word announces (30_encoding.md R72, R73, R76). -/
def headerFormat (h : Word) : Format :=
  if headerRsvd h ≠ 0 then .fmtIll
  else match (headerOpc h).toNat with
    | 0x01 => .fmtA3
    | 0x02 => .fmtD
    | 0x03 => .fmtD
    | 0x04 => .fmtH
    | 0x05 => .fmtA1
    | 0x06 => .fmtA1
    | 0x07 => .fmtA1
    | _ => .fmtIll

/-- The length in bytes of a frame with header `h` and, for FMT_D, length word `len` (30_encoding.md R73). -/
def frameLength (h : Word) (len : Word) : Nat :=
  match headerFormat h with
  | .fmtH => 4
  | .fmtA1 => 8
  | .fmtA3 => 16
  | .fmtD => 8 + len.toNat
  | .fmtIll => 4

/-- Why a header is illegal (30_encoding.md R76). Either way the command ends with ILLEGAL_COMMAND. -/
inductive IllegalHeader where
  /-- RSVD ≠ 0, whatever OPC holds (R71). -/
  | reservedBitsSet (h : Word)
  /-- RSVD = 0 and OPC is none of 0x01 to 0x07 (R72). -/
  | unassignedOpcode (h : Word)
  deriving DecidableEq, Repr

/-- What the decoder reads at a stream position. -/
inductive Decoded where
  /-- A whole frame of a command, and the bytes after it. -/
  | frame (i : Instr) (rest : List Byte)
  /-- The four bytes of an illegal header, and the bytes after them (30_encoding.md R76). -/
  | illegal (why : IllegalHeader) (rest : List Byte)
  /-- The stream does not yet hold the whole frame: a wait, not an error (30_encoding.md R77). -/
  | incomplete
  deriving DecidableEq, Repr

/-- Read one argument word and go on with it, or wait for its bytes. -/
def withArg (bs : List Byte) (next : Word → List Byte → Decoded) : Decoded :=
  match takeWord bs with
  | none => .incomplete
  | some (v, rest) => next v rest

/-- Read LEN and then LEN payload bytes, or wait for them (30_encoding.md R73 FMT_D, R75). -/
def withPayload (bs : List Byte) (command : List Byte → Instr) : Decoded :=
  withArg bs fun len rest =>
    if rest.length < len.toNat then .incomplete
    else .frame (command (rest.take len.toNat)) (rest.drop len.toNat)

/-- Decode the frame whose header is `h`, from the bytes after the header (30_encoding.md R72, R73, R76). -/
def decodeCommand (h : Word) (rest : List Byte) : Decoded :=
  if headerRsvd h ≠ 0 then .illegal (.reservedBitsSet h) rest
  else match (headerOpc h).toNat with
    | 0x01 => withArg rest fun r rest => withArg rest fun c rest => withArg rest fun n rest =>
        .frame (.init r c n) rest
    | 0x02 => withPayload rest .update
    | 0x03 => withPayload rest .digest
    | 0x04 => .frame .squeeze rest
    | 0x05 => withArg rest fun t rest => .frame (.simpleSqueeze t) rest
    | 0x06 => withArg rest fun t rest => .frame (.fastSqueeze t) rest
    | 0x07 => withArg rest fun k rest => .frame (.readReg k) rest
    | _ => .illegal (.unassignedOpcode h) rest

/-- The frame decoder (30_encoding.md R77), total on any byte stream. -/
def decode (bs : List Byte) : Decoded := withArg bs decodeCommand

/-- A command's header word: RSVD = 0 and OPC as the opcode map has it (30_encoding.md R71, R72). -/
def headerWord : Instr → Word
  | .init _ _ _ => 0x00000001
  | .update _ => 0x00000002
  | .digest _ => 0x00000003
  | .squeeze => 0x00000004
  | .simpleSqueeze _ => 0x00000005
  | .fastSqueeze _ => 0x00000006
  | .readReg _ => 0x00000007

/-- The bytes of a command's frame after its header: argument words, then payload (30_encoding.md R70, R73, R75). -/
def frameBody : Instr → List Byte
  | .init r c n => wordBytes r ++ wordBytes c ++ wordBytes n
  | .update chunk => leBytes 4 chunk.length ++ chunk
  | .digest lastChunk => leBytes 4 lastChunk.length ++ lastChunk
  | .squeeze => []
  | .simpleSqueeze t => wordBytes t
  | .fastSqueeze t => wordBytes t
  | .readReg k => wordBytes k

/-- The encoder: a command's frame (30_encoding.md R70). -/
def encode (i : Instr) : List Byte := wordBytes (headerWord i) ++ frameBody i

/-- The frame whose first `nbits` bits are `w` (bit 0 the least significant bit of the first byte) and whose other bits
are 0, as the hardware's byte stream holds it: the length is what its own header and LEN word announce (R73). -/
def tableFrame (nbits w : Nat) : List Byte :=
  let given := leBytes (nbits / 8) w
  let wordAt (k : Nat) : Word := BitVec.ofNat 32 (leNat (((given ++ zeros 8).drop k).take 4))
  let need := frameLength (wordAt 0) (wordAt 4)
  (given ++ zeros need).take need

/-- The command the decoder reads from a table row's bits. -/
def decodeTableWord (nbits w : Nat) : Option Instr :=
  match decode (tableFrame nbits w) with
  | .frame i _ => some i
  | .illegal _ _ => none
  | .incomplete => none

end Sys2Proof
end

