-- ==== Sys2Proof/Machine/State.lean ====
section
/-! DEFINITION. The architectural state of KECCAK_CORE (10_state.md R20 to R27), its value after reset (R35), and the
reasons a step of the model can stop. -/

namespace Sys2Proof.Machine

/-- Where the sponge is in its lifecycle (10_state.md R25). -/
inductive Phase where
  | unconfigured
  | absorbing
  | squeezing
  deriving DecidableEq, Repr

/-- The status a command ends with (60_exceptions.md R260). The codes 0x05 to 0xFF are never produced. -/
inductive Status where
  | ok
  | illegalCommand
  | sequenceError
  | configError
  | unsupportedWordSize
  deriving DecidableEq, Repr

/-- The active configuration: INIT's arguments and the values derived from them (10_state.md R23, 00_scope.md R5), on
unbounded naturals (R8). -/
structure SpongeConfig where
  /-- Bitrate in bits. -/
  r : Nat
  /-- Capacity in bits. -/
  c : Nat
  /-- Output size in bits. -/
  n : Nat
  /-- State size in bits, r + c. -/
  b : Nat
  /-- Lane width in bits, b / 25. -/
  w : Nat
  /-- log2 w. -/
  l : Nat
  /-- Rounds per permutation, 12 + 2 l. -/
  nr : Nat
  /-- Lane mask, 2^w − 1. -/
  wmod : Nat
  /-- Block size in bytes, r / 8. -/
  rr : Nat
  deriving DecidableEq, Repr

/-- The 25 lanes A[x][y] in the order of their storage index 5x + y (00_scope.md R10, 10_state.md R21). -/
abbrev Lanes := Vector Lane 25

/-- What the host does at the block's input. The order of the events is the order of their arrival. -/
inductive InEvent where
  /-- One byte of the frame stream arrives (20_memory.md R50, 30_encoding.md R70). -/
  | byte (b : Byte)
  /-- Reset arrives between commands: every whole frame that arrived before it has run, and the block is idle or holds
  a part of a frame (70_reset_and_hazards.md R290; DESIGN CHOICE, notes/assumptions/4.md and 15.md). -/
  | reset
  /-- Reset arrives while a command runs (70_reset_and_hazards.md R291): the command whose frame ended `unread` bytes
  before this event, the bytes in between having arrived while it ran (R296). Where no command's frame ended there it
  is a reset like the other (DESIGN CHOICE, notes/assumptions/4.md). -/
  | resetMidCommand (unread : Nat)
  deriving DecidableEq, Repr

/-- The state of the block. The first six fields are the record of 10_state.md R20, the last two the streams between
the host and the block. -/
structure State where
  /-- S.phase (10_state.md R25). -/
  phase : Phase
  /-- S.cfg (10_state.md R23). -/
  cfg : Option SpongeConfig
  /-- S.A (10_state.md R21). -/
  lanes : Lanes
  /-- S.buf, the message buffer (10_state.md R24). -/
  buf : List Byte
  /-- S.last_status (10_state.md R26). -/
  lastStatus : Status
  /-- S.err_seen, sticky (10_state.md R26). -/
  errSeen : Bool
  /-- What has arrived from the host and the frame decoder has not consumed, oldest first: a partly received frame
  (70_reset_and_hazards.md R290) and frames sent back to back (R296). -/
  inbox : List InEvent
  /-- Every response byte the block has produced, oldest first (30_encoding.md R78). -/
  outbox : List Byte
  deriving DecidableEq, Repr

/-- Why the model's step stops with a fault. The block itself never stops: every error it knows is the status of a
response (60_exceptions.md R261). -/
inductive Fault where
  /-- Raised by UPDATE, DIGEST, SQUEEZE, SIMPLE_SQUEEZE and FAST_SQUEEZE when the phase makes the command legal and yet
  there is no active configuration. 10_state.md R27 says no such state occurs after reset or after any command, and the
  spec gives the command no effect there. Safe: the model stops where the hardware cannot be. -/
  | noActiveConfiguration
  deriving DecidableEq, Repr

/-- Why the model's step refuses a command. -/
inductive Refusal where
  /-- Raised by the dispatch alone, for a command that has no meaning yet (there is none). Safe. -/
  | notModelled (mnemonic : String)
  deriving DecidableEq, Repr

/-- The state after reset: 10_state.md R35, with nothing received and nothing produced. -/
def State.reset : State where
  phase := .unconfigured
  cfg := none
  lanes := Vector.replicate 25 0
  buf := []
  lastStatus := .ok
  errSeen := false
  inbox := []
  outbox := []

end Sys2Proof.Machine
end

