-- ==== Sys2Proof/Machine/Flags.lean ====
section
/-! DEFINITION. The block's only flag-like state (10_state.md R32): the codes of phase and status, the STATUS
register, and the update of the status fields at a response. -/

namespace Sys2Proof.Machine

/-- The encoding of the phase in STATUS (10_state.md R25, R29). -/
def Phase.code : Phase → Nat
  | .unconfigured => 0
  | .absorbing => 1
  | .squeezing => 2

/-- The status codes (60_exceptions.md R260). -/
def Status.code : Status → Nat
  | .ok => 0x00
  | .illegalCommand => 0x01
  | .sequenceError => 0x02
  | .configError => 0x03
  | .unsupportedWordSize => 0x04

/-- The STATUS register: PHASE in [1:0], LAST_STATUS in [15:8], ERR_SEEN in [16], every other bit 0
(10_state.md R29). -/
def statusRegister (s : State) : Word :=
  BitVec.ofNat 32 s.phase.code ||| BitVec.ofNat 32 s.lastStatus.code <<< 8 ||| BitVec.ofNat 32 s.errSeen.toNat <<< 16

/-- The status fields at a response with status `st` (60_exceptions.md R266); `fromReadReg` says that the command is
READ_REG. -/
def updateStatus (fromReadReg : Bool) (st : Status) (s : State) : State :=
  { s with
    lastStatus := if fromReadReg && decide (st = .ok) then s.lastStatus else st
    errSeen := s.errSeen || decide (st ≠ .ok) }

end Sys2Proof.Machine
end

