-- ==== Sys2Proof/Machine/Operands.lean ====
section
/-! DEFINITION. The operand forms of the commands: argument words, byte ranges, lanes, the map between bytes and lanes,
and the host-readable registers. -/

namespace Sys2Proof.Machine

/-- `zext_32`: an argument word as a natural number (30_encoding.md R74). -/
def zext32 (v : Word) : Nat := v.toNat

/-- `⌈a / b⌉` (00_scope.md R8). -/
def ceilDiv (a b : Nat) : Nat := (a + b - 1) / b

/-- `M[i:j)`: the bytes i to j − 1 of `M` (00_scope.md R11). -/
def slice (M : List Byte) (i j : Nat) : List Byte := (M.take j).drop i

/-- `wmod = 2^w − 1` as a lane (00_scope.md R5, R8). -/
def laneMask (w : Nat) : Lane := BitVec.ofNat 64 (2 ^ w - 1)

/-- The lane A[x][y], at storage index 5x + y (00_scope.md R10). -/
def Lanes.lane (A : Lanes) (x y : Fin 5) : Lane := A[5 * x.val + y.val]

/-- The lane array with A[x][y] = f x y. -/
def Lanes.tabulate (f : Fin 5 → Fin 5 → Lane) : Lanes :=
  Vector.ofFn fun i => f ⟨i.val / 5, by omega⟩ ⟨i.val % 5, by omega⟩

/-- Every lane 0 (43_sponge_control.md R170). -/
def Lanes.zero : Lanes := Lanes.tabulate fun _ _ => 0

/-- A[x][y] ⊕ L[x][y] for every lane (44_sponge_absorber.md R190). -/
def Lanes.xor (A L : Lanes) : Lanes := Lanes.tabulate fun x y => A.lane x y ^^^ L.lane x y

/-- `lanes_of(Z)`: block lane x + 5y, little-endian, goes to A[x][y] (20_memory.md R53). -/
def lanesOf (w : Nat) (Z : List Byte) : Lanes :=
  Lanes.tabulate fun x y =>
    let k := x.val + 5 * y.val
    BitVec.ofNat 64 (leNat (slice Z (k * (w / 8)) ((k + 1) * (w / 8))))

/-- `bytes_of(A)`: the lanes A[k mod 5][k div 5], k = 0..24, each little-endian (20_memory.md R54). -/
def bytesOf (w : Nat) (A : Lanes) : List Byte :=
  (List.range 25).flatMap fun k => leBytes (w / 8) (A.lane (Fin.ofNat 5 k) (Fin.ofNat 5 (k / 5))).toNat

/-- A field of the active configuration, or 0 when there is none (10_state.md R28). -/
def configField (s : State) (field : SpongeConfig → Nat) : Word :=
  match s.cfg with
  | none => 0
  | some C => BitVec.ofNat 32 (field C)

/-- The host-readable registers 0 to 6 (10_state.md R28). A number from 7 up names no register: READ_REG ends with
ILLEGAL_COMMAND before it reads one (43_sponge_control.md R173). -/
def readRegister (k : Nat) (s : State) : Word :=
  match k with
  | 0 => statusRegister s
  | 1 => configField s (·.r)
  | 2 => configField s (·.c)
  | 3 => configField s (·.n)
  | 4 => configField s (·.w)
  | 5 => configField s (·.nr)
  | 6 => Config.idRegister
  | _ => 0

end Sys2Proof.Machine
end

