-- ==== Sys2Proof/Machine/Ops.lean ====
section
/-! DEFINITION. The operations every command shares: its response, the way it ends with an error (the block's only
exception mechanism, 60_exceptions.md R261), and the phase check. No command returns from an error, because no state is
saved (R268). -/

namespace Sys2Proof.Machine

/-- A response on the wire: `le_4(STAT) ++ le_4(DLEN) ++ data` (30_encoding.md R78). -/
def responseBytes (st : Status) (data : List Byte) : List Byte :=
  leBytes 4 st.code ++ leBytes 4 data.length ++ data

/-- `respond(st, data)`: produce the response and update the status fields (00_scope.md R12, 60_exceptions.md R266). -/
def respond (fromReadReg : Bool) (st : Status) (data : List Byte) (s : State) : State :=
  updateStatus fromReadReg st { s with outbox := s.outbox ++ responseBytes st data }

/-- The end of a running computation by a failed INIT (60_exceptions.md R265). -/
def clearComputation (s : State) : State :=
  { s with phase := .unconfigured, cfg := none, lanes := Lanes.zero, buf := [] }

/-- What an error does to the sponge (60_exceptions.md R263 to R265). -/
def errorEffect (st : Status) (s : State) : State :=
  match st with
  | .ok => s
  | .illegalCommand => s
  | .sequenceError => s
  | .configError => clearComputation s
  | .unsupportedWordSize => clearComputation s

/-- `raise E`: a command ends with the error `st`, without data (00_scope.md R12, 60_exceptions.md R261). An error is
never OK, so READ_REG's exception in R266 does not matter here. -/
def raise (st : Status) (s : State) : State := respond false st [] (errorEffect st s)

/-- The phase check of 60_exceptions.md R262 for a command that is legal in phase `p` alone, and then the command's own
effect under the active configuration. Its payload, if any, is dropped when the check fails (R264). -/
def inPhase (p : Phase) (s : State) (effect : SpongeConfig → Host.Outcome State Fault Refusal) :
    Host.Outcome State Fault Refusal :=
  if s.phase = p then
    match s.cfg with
    | some C => effect C
    | none => .fault .noActiveConfiguration
  else .next (raise .sequenceError s)

/-- The reset event (70_reset_and_hazards.md R290): every field of S takes its reset value, and no response is
produced. The input that arrived after the event and the responses produced before it are the host's and stay. -/
def resetEvent (s : State) : State := { State.reset with inbox := s.inbox, outbox := s.outbox }

end Sys2Proof.Machine
end

