-- ==== Sys2Proof/Machine/Control.lean ====
section
/-! DEFINITION. Sponge control: INIT and READ_REG (43_sponge_control.md). Both are legal in every phase
(60_exceptions.md R262). -/

namespace Sys2Proof.Machine

/-- `validate(r, c, n)`: the first check that fails, in the order of 43_sponge_control.md R172, on unbounded naturals
(00_scope.md R8). -/
def validate (r c n : Nat) : Status :=
  if r = 0 ∨ c = 0 ∨ n = 0 ∨ r % 8 ≠ 0 ∨ c % 8 ≠ 0 then .configError
  else if (r + c) % 25 ≠ 0 then .configError
  else if Config.maxWordSize < (r + c) / 25 then .unsupportedWordSize
  else if 2 ^ Nat.log2 ((r + c) / 25) ≠ (r + c) / 25 then .unsupportedWordSize
  else .ok

/-- The configuration INIT derives from its arguments (00_scope.md R5, 43_sponge_control.md R170). -/
def deriveConfig (r c n : Nat) : SpongeConfig :=
  let b := r + c
  let w := b / 25
  let l := Nat.log2 w
  { r := r, c := c, n := n, b := b, w := w, l := l, nr := 12 + 2 * l, wmod := 2 ^ w - 1, rr := r / 8 }

/-- INIT (43_sponge_control.md R170). -/
def execInit (r c n : Word) (s : State) : Host.Outcome State Fault Refusal :=
  let st := validate (zext32 r) (zext32 c) (zext32 n)
  if st = .ok then
    .next (respond false .ok []
      { s with
        phase := .absorbing
        cfg := some (deriveConfig (zext32 r) (zext32 c) (zext32 n))
        lanes := Lanes.zero
        buf := [] })
  else .next (raise st s)

/-- READ_REG (43_sponge_control.md R173). -/
def execReadReg (regnum : Word) (s : State) : Host.Outcome State Fault Refusal :=
  if 6 < zext32 regnum then .next (raise .illegalCommand s)
  else .next (respond true .ok (wordBytes (readRegister (zext32 regnum) s)) s)

end Sys2Proof.Machine
end

