-- ==== Sys2Proof/Machine/Round.lean ====
section
/-! DEFINITION. The sub-block keccak_f_round: one round of Keccak-f on 25 w-bit lanes (40_keccak_f_round.md). Index
arithmetic on `Fin 5` is mod 5 (00_scope.md R10). -/

namespace Sys2Proof.Machine

/-- `rotl_w(v, k)`: rotate left by k mod w (00_scope.md R9). -/
def rotl (w : Nat) (v : Lane) (k : Nat) : Lane :=
  let s := k % w
  if s = 0 then v else (v <<< s ||| v >>> (w - s)) &&& laneMask w

/-- The rotation offsets in linear order 5x + y (40_keccak_f_round.md R105). -/
def rotationOffsets : List Nat :=
  [0, 36, 3, 41, 18, 1, 44, 10, 45, 2, 62, 6, 43, 15, 61, 28, 55, 25, 21, 56, 27, 20, 39, 8, 14]

/-- ROT[x][y] (40_keccak_f_round.md R105). -/
def rotationOffset (x y : Fin 5) : Nat := rotationOffsets.getD (5 * x.val + y.val) 0

/-- The round constants RC[0] to RC[23] (40_keccak_f_round.md R106). -/
def roundConstants : List Lane :=
  [0x0000000000000001, 0x0000000000008082, 0x800000000000808A, 0x8000000080008000,
   0x000000000000808B, 0x0000000080000001, 0x8000000080008081, 0x8000000000008009] ++
  [0x000000000000008A, 0x0000000000000088, 0x0000000080008009, 0x000000008000000A,
   0x000000008000808B, 0x800000000000008B, 0x8000000000008089, 0x8000000000008003] ++
  [0x8000000000008002, 0x8000000000000080, 0x000000000000800A, 0x800000008000000A,
   0x8000000080008081, 0x8000000000008080, 0x0000000080000001, 0x8000000080008008]

/-- RC[i] ∧ wmod, the constant of round i at lane width w (40_keccak_f_round.md R107). A round index is at most 23
(41_keccak_permutation.md R131). -/
def roundConstant (w i : Nat) : Lane := roundConstants.getD i 0 &&& laneMask w

/-- C[x] of θ: the parity of column x (40_keccak_f_round.md R101). -/
def columnParity (A : Lanes) (x : Fin 5) : Lane :=
  A.lane x 0 ^^^ A.lane x 1 ^^^ A.lane x 2 ^^^ A.lane x 3 ^^^ A.lane x 4

/-- θ (40_keccak_f_round.md R101). -/
def theta (w : Nat) (A : Lanes) : Lanes :=
  let C := Vector.ofFn (columnParity A)
  let D := Vector.ofFn fun x : Fin 5 => C[x - 1] ^^^ rotl w C[x + 1] 1
  Lanes.tabulate fun x y => A.lane x y ^^^ D[x]

/-- ρ and π (40_keccak_f_round.md R102), written by target lane: B[u][v] comes from A[x][y] with y = u and
x = (v − 3u)·3, the inverse the rule gives of (x, y) ↦ (y, 2x + 3y). -/
def rhoPi (w : Nat) (A : Lanes) : Lanes :=
  Lanes.tabulate fun u v =>
    let x := (v - 3 * u) * 3
    let y := u
    rotl w (A.lane x y) (rotationOffset x y)

/-- χ, with the complement taken within w bits as ⊕ wmod (40_keccak_f_round.md R103, 00_scope.md R8). -/
def chi (w : Nat) (B : Lanes) : Lanes :=
  Lanes.tabulate fun x y => B.lane x y ^^^ ((B.lane (x + 1) y ^^^ laneMask w) &&& B.lane (x + 2) y)

/-- ι (40_keccak_f_round.md R104). -/
def iota (A : Lanes) (rc : Lane) : Lanes :=
  Lanes.tabulate fun x y => if x = 0 ∧ y = 0 then A.lane x y ^^^ rc else A.lane x y

/-- `round(A, rc)` (40_keccak_f_round.md R108): it reads its operands and nothing else (R100, R109). -/
def keccakRound (w : Nat) (A : Lanes) (rc : Lane) : Lanes := iota (chi w (rhoPi w (theta w A))) rc

end Sys2Proof.Machine
end

