-- ==== Sys2Proof/Machine/Permutation.lean ====
section
/-! DEFINITION. The sub-block keccak_permutation: Keccak-f[25w] (41_keccak_permutation.md). The model has the one
generic path for every w (R133). -/

namespace Sys2Proof.Machine

/-- nr = 12 + 2·log2(w) (00_scope.md R5, 41_keccak_permutation.md R134). -/
def roundCount (w : Nat) : Nat := 12 + 2 * Nat.log2 w

/-- `keccakF(A)`: rounds 0 to nr − 1 in increasing order (41_keccak_permutation.md R131). -/
def keccakF (w : Nat) (A : Lanes) : Lanes :=
  (List.range (roundCount w)).foldl (fun A i => keccakRound w A (roundConstant w i)) A

/-- `t` permutations in a row (45_sponge_squeezer.md R214, R215). -/
def keccakTimes (w t : Nat) (A : Lanes) : Lanes := (keccakF w)^[t] A

end Sys2Proof.Machine
end

