-- ==== Sys2Proof/Machine/Absorber.lean ====
section
/-! DEFINITION. The sub-block sponge_absorber: block absorption and UPDATE (44_sponge_absorber.md). -/

namespace Sys2Proof.Machine

/-- `absorb_block(A, P)` for a block of rr bytes; the capacity bytes count as 0 (44_sponge_absorber.md R190,
20_memory.md R55). -/
def absorbBlock (C : SpongeConfig) (A : Lanes) (P : List Byte) : Lanes :=
  keccakF C.w (A.xor (lanesOf C.w (P ++ zeros (C.b / 8 - C.rr))))

/-- Absorb the first `count` blocks of `M` in order (44_sponge_absorber.md R191, 45_sponge_squeezer.md R212). -/
def absorbBlocks (C : SpongeConfig) (count : Nat) (A : Lanes) (M : List Byte) : Lanes :=
  (List.range count).foldl (fun A j => absorbBlock C A (slice M (j * C.rr) ((j + 1) * C.rr))) A

/-- The super-block in bytes, (r·b)/8 (44_sponge_absorber.md R191, 93_implementation_defined.md I3). -/
def superBlock (C : SpongeConfig) : Nat := C.r * C.b / 8

/-- UPDATE's effect in ABSORBING with a super-block of `sb` bytes (44_sponge_absorber.md R191). The block's own `sb` is
`superBlock`; R194 speaks of the others. -/
def updateEffect (sb : Nat) (C : SpongeConfig) (chunk : List Byte) (s : State) : State :=
  let buf := s.buf ++ chunk
  let L := buf.length - buf.length % sb
  respond false .ok [] { s with lanes := absorbBlocks C (L / C.rr) s.lanes buf, buf := buf.drop L }

/-- UPDATE (44_sponge_absorber.md R191). -/
def execUpdate (chunk : List Byte) (s : State) : Host.Outcome State Fault Refusal :=
  inPhase .absorbing s fun C => .next (updateEffect (superBlock C) C chunk s)

end Sys2Proof.Machine
end

