-- ==== Sys2Proof/Machine/Padding.lean ====
section
/-! DEFINITION. The sub-block pad10star1_engine: pad10*1 without a domain suffix (42_pad10star1_engine.md). -/

namespace Sys2Proof.Machine

/-- The start marker, the '1' bit appended after whole bytes (42_pad10star1_engine.md R152). -/
def startMarker : Byte := 0x01

/-- The final '1' bit (42_pad10star1_engine.md R152). -/
def endMarker : Byte := 0x80

/-- Whether both markers share one byte: r − 8 ≤ 8L mod r ≤ r − 2 for a message of L bytes
(42_pad10star1_engine.md R151, following 90_conflicts.md C3). -/
def singleByteBranch (L r : Nat) : Bool := decide (r - 8 ≤ 8 * L % r) && decide (8 * L % r ≤ r - 2)

/-- `pad(M, r)` (42_pad10star1_engine.md R151 to R153). -/
def pad (M : List Byte) (r : Nat) : List Byte :=
  let rr := r / 8
  let L := M.length
  if singleByteBranch L r then M ++ [startMarker ^^^ endMarker]
  else
    let T := rr * ceilDiv (L + 1) rr
    M ++ [startMarker] ++ zeros (T - L - 2) ++ [endMarker]

end Sys2Proof.Machine
end

