-- ==== Sys2Proof/Machine/Squeezer.lean ====
section
/-! DEFINITION. The sub-block sponge_squeezer: output extraction, DIGEST and the squeeze commands
(45_sponge_squeezer.md). -/

namespace Sys2Proof.Machine

/-- `out_block(A)`: the first rr bytes of the serialized state (45_sponge_squeezer.md R210). -/
def outBlock (C : SpongeConfig) (A : Lanes) : List Byte := (bytesOf C.w A).take C.rr

/-- nn = ⌈n/8⌉, the bytes of one digest (45_sponge_squeezer.md). -/
def digestLength (C : SpongeConfig) : Nat := ceilDiv C.n 8

/-- k = ⌈n/r⌉, the permutations of one digest-equivalent (45_sponge_squeezer.md R215). -/
def digestBlocks (C : SpongeConfig) : Nat := ceilDiv C.n C.r

/-- The loop of squeeze_tail (45_sponge_squeezer.md R211) from lanes `A` and output `out`. Each turn adds rr ≥ 1 bytes,
so `digestLength C` turns of fuel always reach the exit. -/
def squeezeLoop (C : SpongeConfig) : Nat → Lanes → List Byte → Lanes × List Byte
  | 0, A, out => (A, out)
  | fuel + 1, A, out =>
    let out := out ++ outBlock C A
    if digestLength C ≤ out.length then (A, out) else squeezeLoop C fuel (keccakF C.w A) out

/-- Keep the low n mod 8 bits of the last of the ⌈n/8⌉ bytes, if n mod 8 ≠ 0 (45_sponge_squeezer.md R211). -/
def maskLastByte (n : Nat) (out : List Byte) : List Byte :=
  if n % 8 = 0 then out
  else out.modify (ceilDiv n 8 - 1) (· &&& BitVec.ofNat 8 (2 ^ (n % 8) - 1))

/-- `squeeze_tail()`: the lanes it leaves and the digest it returns (45_sponge_squeezer.md R211). -/
def squeezeTail (C : SpongeConfig) (A : Lanes) : Lanes × List Byte :=
  let final := squeezeLoop C (digestLength C) A []
  (final.1, maskLastByte C.n (final.2.take (digestLength C)))

/-- The lanes after DIGEST's last absorb_block, from buffer `buf` and last chunk `last` (45_sponge_squeezer.md R212,
R216's S0). -/
def absorbPadded (C : SpongeConfig) (A : Lanes) (M : List Byte) : Lanes :=
  let P := pad M C.r
  absorbBlocks C (P.length / C.rr) A P

/-- DIGEST (45_sponge_squeezer.md R212). -/
def execDigest (lastChunk : List Byte) (s : State) : Host.Outcome State Fault Refusal :=
  inPhase .absorbing s fun C =>
    let tail := squeezeTail C (absorbPadded C s.lanes (s.buf ++ lastChunk))
    .next (respond false .ok tail.2 { s with lanes := tail.1, buf := [], phase := .squeezing })

/-- SQUEEZE (45_sponge_squeezer.md R213). -/
def execSqueeze (s : State) : Host.Outcome State Fault Refusal :=
  inPhase .squeezing s fun C =>
    let tail := squeezeTail C (keccakF C.w s.lanes)
    .next (respond false .ok tail.2 { s with lanes := tail.1 })

/-- SIMPLE_SQUEEZE (45_sponge_squeezer.md R214). -/
def execSimpleSqueeze (times : Word) (s : State) : Host.Outcome State Fault Refusal :=
  inPhase .squeezing s fun C =>
    .next (respond false .ok [] { s with lanes := keccakTimes C.w (zext32 times) s.lanes })

/-- FAST_SQUEEZE (45_sponge_squeezer.md R215). -/
def execFastSqueeze (times : Word) (s : State) : Host.Outcome State Fault Refusal :=
  inPhase .squeezing s fun C =>
    .next (respond false .ok [] { s with lanes := keccakTimes C.w (zext32 times * digestBlocks C) s.lanes })

end Sys2Proof.Machine
end

