-- ==== Sys2Proof/Machine/Dispatch.lean ====
section
/-! DEFINITION. One arm per command of the opcode map (30_encoding.md R72). -/

namespace Sys2Proof.Machine

def exec (i : Instr) (s : State) : Host.Outcome State Fault Refusal :=
  match i with
  | .init r c n => Sys2Proof.Machine.execInit r c n s
  | .update chunk => Sys2Proof.Machine.execUpdate chunk s
  | .digest lastChunk => Sys2Proof.Machine.execDigest lastChunk s
  | .squeeze => Sys2Proof.Machine.execSqueeze s
  | .simpleSqueeze times => Sys2Proof.Machine.execSimpleSqueeze times s
  | .fastSqueeze times => Sys2Proof.Machine.execFastSqueeze times s
  | .readReg regnum => Sys2Proof.Machine.execReadReg regnum s

end Sys2Proof.Machine
end

