-- ==== Sys2Proof/Machine/Fetch.lean ====
section
/-! DEFINITION. How the block takes the next command off its input: the frame decoder over the host's byte stream,
and the reset event in that stream (30_encoding.md R77, 70_reset_and_hazards.md R290, R291). -/

namespace Sys2Proof.Machine

/-- The bytes that have arrived before the first reset event, and that event with everything after it. -/
def splitBytes : List InEvent → List Byte × List InEvent
  | .byte b :: evs => (b :: (splitBytes evs).1, (splitBytes evs).2)
  | evs => ([], evs)

/-- What the input holds next for the block. -/
inductive Fetched where
  /-- The whole frame of a command; `later` is the input after it. -/
  | run (i : Instr) (later : List InEvent)
  /-- An illegal four-byte frame (30_encoding.md R76). -/
  | illegalFrame (later : List InEvent)
  /-- A reset; a partly received frame, or the command running when it arrived, is gone. -/
  | reset (later : List InEvent)
  /-- Not yet a whole frame and no reset: the block waits (30_encoding.md R77). -/
  | wait
  deriving DecidableEq, Repr

/-- Whether a reset arrives while the command runs that leaves `unread` bytes and then `evs` at the input, and the input
after that reset (70_reset_and_hazards.md R291). The unread bytes arrived before the reset and go with it: a partly
received frame as R290 says, and whole frames that wait behind the command by the model's choice
(notes/assumptions/15.md). -/
def abandoned (unread : Nat) (evs : List InEvent) : Option (List InEvent) :=
  match evs with
  | .resetMidCommand k :: after => if k = unread then some after else none
  | _ => none

/-- The next thing the block does with its input. A whole frame that arrived before a reset between commands runs before
that reset (DESIGN CHOICE, notes/assumptions/15.md). -/
def fetch (inbox : List InEvent) : Fetched :=
  let arrived := splitBytes inbox
  match decode arrived.1 with
  | .frame i rest =>
    match abandoned rest.length arrived.2 with
    | some after => .reset after
    | none => .run i (rest.map .byte ++ arrived.2)
  | .illegal _ rest =>
    match abandoned rest.length arrived.2 with
    | some after => .reset after
    | none => .illegalFrame (rest.map .byte ++ arrived.2)
  | .incomplete =>
    match arrived.2 with
    | [] => .wait
    | _ :: after => .reset after

end Sys2Proof.Machine
end

