-- ==== Sys2Proof/Machine/Step.lean ====
section
/-! DEFINITION. One step of the block: one command, atomically (20_memory.md R57, R58), or one reset. -/

namespace Sys2Proof.Machine

/-- One step. The block takes the next frame off its input and runs it to its response; an illegal frame ends with
ILLEGAL_COMMAND (60_exceptions.md R262, R263); a reset sets the reset state (70_reset_and_hazards.md R290, R291);
while no whole frame has arrived the block stays as it is (30_encoding.md R77, 60_exceptions.md R272). -/
def step (s : State) : Host.Outcome State Fault Refusal :=
  match fetch s.inbox with
  | .run i later => exec i { s with inbox := later }
  | .illegalFrame later => .next (raise .illegalCommand { s with inbox := later })
  | .reset later => .next (resetEvent { s with inbox := later })
  | .wait => .next s

/-- The state with exactly the frame of a table row's bits at the block's input, so that the next step runs it. -/
def State.withFetchWord (s : State) (nbits w : Nat) : State :=
  { s with inbox := (tableFrame nbits w).map .byte }

end Sys2Proof.Machine
end

