-- ==== Sys2Proof/Machine/HostSide.lean ====
section
/-! DEFINITION. The host's side of the interface: what a host can do at the block's input, command sequences and their
pseudo-commands (30_encoding.md R80), and the Iteration Controller, which is no hardware of the block
(46_host_protocol.md, 00_scope.md R4 (b)). Nothing in `step` uses this file. -/

namespace Sys2Proof.Machine

/-- The host sends bytes (20_memory.md R50). -/
def hostSend (bs : List Byte) (s : State) : State := { s with inbox := s.inbox ++ bs.map .byte }

/-- The host resets the block between commands (70_reset_and_hazards.md R290). -/
def hostReset (s : State) : State := { s with inbox := s.inbox ++ [.reset] }

/-- The host resets the block while the command runs whose frame ended `unread` bytes ago
(70_reset_and_hazards.md R291, R296). -/
def hostResetMidCommand (unread : Nat) (s : State) : State :=
  { s with inbox := s.inbox ++ [.resetMidCommand unread] }

/-- The effects of a sequence of commands, composed in issue order (20_memory.md R58). -/
def runCommands : List Instr → State → Host.Outcome State Fault Refusal
  | [], s => .next s
  | i :: is, s =>
    match exec i s with
    | .next t => runCommands is t
    | .fault e => .fault e
    | .refused e => .refused e

/-- A core that differs from the block in its super-block constant alone: UPDATE consumes multiples of `sb C` bytes
(44_sponge_absorber.md R194). -/
def execWithBatch (sb : SpongeConfig → Nat) (i : Instr) (s : State) : Host.Outcome State Fault Refusal :=
  match i with
  | .update chunk => inPhase .absorbing s fun C => .next (updateEffect (sb C) C chunk s)
  | i => exec i s

/-- A sequence of commands on such a core. -/
def runWithBatch (sb : SpongeConfig → Nat) : List Instr → State → Host.Outcome State Fault Refusal
  | [], s => .next s
  | i :: is, s =>
    match execWithBatch sb i s with
    | .next t => runWithBatch sb is t
    | .fault e => .fault e
    | .refused e => .refused e

/-- Pseudo-command HASH (30_encoding.md R80). Its message is one DIGEST, whatever its length: one of 2^32 bytes or more has
no frame (R75), and this function stands for it as one command all the same (DESIGN CHOICE, notes/assumptions/13.md). -/
def pseudoHash (r c n : Word) (bytes : List Byte) : List Instr := [.init r c n, .digest bytes]

/-- Pseudo-command KECCAK224 (30_encoding.md R80). -/
def pseudoKeccak224 (bytes : List Byte) : List Instr := pseudoHash 1152 448 224 bytes

/-- Pseudo-command KECCAK256 (30_encoding.md R80). -/
def pseudoKeccak256 (bytes : List Byte) : List Instr := pseudoHash 1088 512 256 bytes

/-- Pseudo-command KECCAK384 (30_encoding.md R80). -/
def pseudoKeccak384 (bytes : List Byte) : List Instr := pseudoHash 832 768 384 bytes

/-- Pseudo-command KECCAK512 (30_encoding.md R80). -/
def pseudoKeccak512 (bytes : List Byte) : List Instr := pseudoHash 576 1024 512 bytes

/-- Pseudo-command SQUEEZE_TO j, for j ≥ 1 after DIGEST (30_encoding.md R80). The spec is silent where j − 2 no longer
fits the 32-bit TIMES word (R74): the model then truncates it modulo 2^32 (DESIGN CHOICE, notes/assumptions/13.md). -/
def pseudoSqueezeTo (j : Nat) : List Instr :=
  if j ≤ 1 then []
  else if j = 2 then [.squeeze]
  else [.fastSqueeze (BitVec.ofNat 32 (j - 2)), .squeeze]

/-- How the host's process ends (46_host_protocol.md R245). -/
inductive HostExit where
  | success
  | unrecognizedOption
  | invalidCount
  | unreadableInput
  | invalidParameters
  deriving DecidableEq, Repr

/-- The process exit codes (46_host_protocol.md R245). -/
def HostExit.code : HostExit → Nat
  | .success => 0
  | .unrecognizedOption => 1
  | .invalidCount => 3
  | .unreadableInput => 5
  | .invalidParameters => 6

/-- The exit a status leads to. A correct host never meets the two statuses without one (46_host_protocol.md R245). -/
def hostExitOfStatus : Status → Option HostExit
  | .ok => some .success
  | .configError => some .invalidParameters
  | .unsupportedWordSize => some .invalidParameters
  | .illegalCommand => none
  | .sequenceError => none

/-- The data of the last response, when it is a digest of `n` bits (46_host_protocol.md R241). -/
def lastDigest (n : Word) (s : State) : List Byte := s.outbox.drop (s.outbox.length - ceilDiv (zext32 n) 8)

/-- `i` chained iterations with squeeze count `j`: each begins with INIT, and the digest of one is the whole message of
the next (46_host_protocol.md R241, R242). It ends with the digests, the first iteration's first. For j from 2^32 + 2 up
see `pseudoSqueezeTo`. A message of 2^32 bytes or more, which R241 lets the host split over UPDATEs, is here one DIGEST
as in `pseudoHash` (DESIGN CHOICE, notes/assumptions/13.md). -/
def runIterations (r c n : Word) (j : Nat) : Nat → List Byte → State → Host.Outcome (State × List (List Byte)) Fault Refusal
  | 0, _, s => .next (s, [])
  | i + 1, M, s =>
    match runCommands (pseudoHash r c n M ++ pseudoSqueezeTo j) s with
    | .next t =>
      match runIterations r c n j i (lastDigest n t) t with
      | .next (u, digests) => .next (u, lastDigest n t :: digests)
      | .fault e => .fault e
      | .refused e => .refused e
    | .fault e => .fault e
    | .refused e => .refused e

/-- The host's check of its counts, before it sends any command (46_host_protocol.md R240). -/
def checkCounts (i j : Nat) : Option HostExit := if i < 1 ∨ j < 1 then some .invalidCount else none

/-- Loop-detection display: the first digest that occurs a second time (46_host_protocol.md R243). -/
def cycleStart : List (List Byte) → List (List Byte) → Option (List Byte)
  | _, [] => none
  | seen, d :: ds => if d ∈ seen then some d else cycleStart (d :: seen) ds

end Sys2Proof.Machine
end

