-- ==== Sys2Proof/Safety.lean ====
section
/-! DEFINITION. What holds of the block between commands (10_state.md R27), and the terms the statements use. -/

namespace Sys2Proof.Machine

/-- Every lane lies in [0, 2^w) (00_scope.md R8, 10_state.md R21). -/
def Lanes.inRange (w : Nat) (A : Lanes) : Prop := ∀ x y : Fin 5, (A.lane x y).toNat < 2 ^ w

/-- A configuration INIT accepts, with the values INIT derives from it (43_sponge_control.md R170, R172); its output
size fits an argument word (00_scope.md R7, N_MAX). -/
def SpongeConfig.Valid (C : SpongeConfig) : Prop :=
  validate C.r C.c C.n = .ok ∧ C = deriveConfig C.r C.c C.n ∧ C.n ≤ Config.nMax

/-- The invariant between commands: the three lines of 10_state.md R27, with the configuration valid (R23), every lane
in range (R21), and a last status other than OK never without the sticky bit (60_exceptions.md R266). -/
structure State.Inv (s : State) : Prop where
  unconfigured : s.phase = .unconfigured → s.cfg = none ∧ s.buf = [] ∧ ∀ x y, s.lanes.lane x y = 0
  absorbing : s.phase = .absorbing →
    ∃ C, s.cfg = some C ∧ C.Valid ∧ s.lanes.inRange C.w ∧ s.buf.length < superBlock C
  squeezing : s.phase = .squeezing → ∃ C, s.cfg = some C ∧ C.Valid ∧ s.lanes.inRange C.w ∧ s.buf = []
  sticky : s.lastStatus ≠ .ok → s.errSeen = true

/-- A safe state: the block goes on from it. -/
def State.goesOn (s : State) : Prop := ∃ t, step s = .next t

/-- Y_m: the first rr bytes of the state serialized after `m` permutations (45_sponge_squeezer.md R210, R216). -/
def streamBlock (C : SpongeConfig) (S0 : Lanes) (m : Nat) : List Byte :=
  (bytesOf C.w (keccakTimes C.w m S0)).take C.rr

/-- The first `count` blocks of the output stream Z = Y_0 ++ Y_1 ++ … (45_sponge_squeezer.md R216). -/
def outputStream (C : SpongeConfig) (S0 : Lanes) (count : Nat) : List Byte :=
  (List.range count).flatMap (streamBlock C S0)

/-- The `q`-th output, counting DIGEST's as the 0th: mask(Z[q·k·rr : q·k·rr + nn)) (45_sponge_squeezer.md R216). -/
def streamOutput (C : SpongeConfig) (S0 : Lanes) (q : Nat) : List Byte :=
  let start := q * digestBlocks C * C.rr
  maskLastByte C.n (slice (outputStream C S0 ((q + 1) * digestBlocks C)) start (start + digestLength C))

/-- The bits of a byte sequence: bit i is bit (i mod 8) of byte ⌊i/8⌋ (20_memory.md R52). -/
def bitString (M : List Byte) : List Bool := M.flatMap fun b => (List.range 8).map b.getLsbD

/-- One shift of the LFSR x^8 + x^6 + x^5 + x^4 + 1: times x modulo the polynomial (40_keccak_f_round.md R106). -/
def lfsrShift (v : BitVec 8) : BitVec 8 := if v.getLsbD 7 then v <<< 1 ^^^ 0x71 else v <<< 1

/-- The LFSR's register after `t` shifts from 1. -/
def lfsr : Nat → BitVec 8
  | 0 => 1
  | t + 1 => lfsrShift (lfsr t)

/-- rc(t), the output bit of the LFSR; its period is 255 (40_keccak_f_round.md R106). -/
def lfsrOutput (t : Nat) : Bool := (lfsr (t % 255)).getLsbD 0

/-- The lane positions (x, y) of the walk from (1, 0) along (x, y) ← (y, 2x + 3y) (40_keccak_f_round.md R105). -/
def offsetWalk : Nat → Fin 5 × Fin 5
  | 0 => (1, 0)
  | t + 1 => ((offsetWalk t).2, 2 * (offsetWalk t).1 + 3 * (offsetWalk t).2)

end Sys2Proof.Machine
end

