-- ==== Sys2Proof/Certificates/Slice0/Obligations.lean ====
section
/-! DEFINITION. The statements about KECCAK_CORE, in the order of the files of spec/ they come from. Wherever a statement
speaks of `outbox`, that the responses of 30_encoding.md R78 are one growing list of bytes in State is the model's choice
(notes/assumptions/2.md), and wherever it speaks of `inbox` so is the list of events there (notes/assumptions/1.md). -/

open Sys2Proof Sys2Proof.Machine

/-! ### Notation, state and reset -/

/-- 00_scope.md R9: rotation by any amount `k`, read bit by bit, on a value in [0, 2^w). -/
def Obligations.RotationMovesBitsModuloWidth : Prop :=
  ∀ (w : Nat) (v : Lane) (k i : Nat), 0 < w → w ≤ 64 → v.toNat < 2 ^ w →
    (rotl w v k).getLsbD i = (decide (i < w) && v.getLsbD ((i + (w - k % w)) % w))

/-- 00_scope.md R6: what INIT accepts. -/
def Obligations.AcceptedWordSizes : Prop :=
  ∀ r c n : Nat, validate r c n = .ok →
    r % 8 = 0 ∧ c % 8 = 0 ∧ 25 * ((r + c) / 25) = r + c ∧
    ((r + c) / 25, r + c, roundCount ((r + c) / 25)) ∈ [(8, 200, 18), (16, 400, 20), (32, 800, 22), (64, 1600, 24)]

/-- 10_state.md R35: the reset value of every piece of state, and what the registers read then. -/
def Obligations.ResetValues : Prop :=
  State.reset.phase = .unconfigured ∧ State.reset.cfg = none ∧ (∀ x y, State.reset.lanes.lane x y = 0) ∧
  State.reset.buf = [] ∧ State.reset.lastStatus = .ok ∧ State.reset.errSeen = false ∧
  (∀ k, k < 6 → readRegister k State.reset = 0) ∧ readRegister 6 State.reset = 0x4B430001

/-- 10_state.md R27 at reset. -/
def Obligations.ResetMeetsInvariant : Prop := State.reset.Inv

/-- 10_state.md R27: every step, from every state that meets the invariant, keeps it. -/
def Obligations.StepKeepsInvariant : Prop :=
  ∀ s t : State, s.Inv → step s = .next t → t.Inv

/-- 60_exceptions.md R261, R262: every error the block knows is a status, so no command and no stream stops it. Where the
input holds no whole frame, that the step answers a next state at all is the model's choice (notes/assumptions/3.md):
30_encoding.md R77 says that the core takes no step and waits. -/
def Obligations.InvariantStatesNeverStop : Prop := ∀ s : State, s.Inv → s.goesOn

/-- 10_state.md R29: the fields of STATUS, bit for bit, and the codes they hold. -/
def Obligations.StatusRegisterFields : Prop :=
  (∀ s : State,
    (statusRegister s).extractLsb' 0 2 = BitVec.ofNat 2 s.phase.code ∧
    (statusRegister s).extractLsb' 2 6 = 0 ∧
    (statusRegister s).extractLsb' 8 8 = BitVec.ofNat 8 s.lastStatus.code ∧
    (statusRegister s).extractLsb' 16 1 = BitVec.ofBool s.errSeen ∧
    (statusRegister s).extractLsb' 17 15 = 0) ∧
  [Phase.unconfigured, .absorbing, .squeezing].map Phase.code = [0, 1, 2] ∧
  [Status.ok, .illegalCommand, .sequenceError, .configError, .unsupportedWordSize].map Status.code = [0, 1, 2, 3, 4]

/-- 10_state.md R23: no command but INIT changes the configuration. -/
def Obligations.OnlyInitChangesConfiguration : Prop :=
  ∀ (i : Instr) (s t : State), (∀ r c n, i ≠ .init r c n) → exec i s = .next t → t.cfg = s.cfg

/-- 10_state.md R22: the responses, phase, configuration and status of a command that extracts no output do not depend
on the lanes. -/
def Obligations.LanesAreHiddenFromOtherCommands : Prop :=
  ∀ (i : Instr) (s t : State) (A : Lanes), (∀ bs, i ≠ .digest bs) → i ≠ .squeeze → exec i s = .next t →
    ∃ t', exec i { s with lanes := A } = .next t' ∧ t'.outbox = t.outbox ∧ t'.phase = t.phase ∧ t'.cfg = t.cfg ∧
      t'.lastStatus = t.lastStatus ∧ t'.errSeen = t.errSeen

/-! ### Bytes and lanes -/

/-- 20_memory.md R53, R54: the two views of the state are inverse to each other, at each reachable lane width. -/
def Obligations.LanesAndBytesAreInverse : Prop :=
  ∀ w ∈ [8, 16, 32, 64],
    (∀ A : Lanes, A.inRange w → (bytesOf w A).length = 25 * (w / 8) ∧ lanesOf w (bytesOf w A) = A) ∧
    (∀ Z : List Byte, Z.length = 25 * (w / 8) → (lanesOf w Z).inRange w ∧ bytesOf w (lanesOf w Z) = Z)

/-- 20_memory.md R53: where a byte of a state-sized sequence goes: byte j of block lane x + 5y is bits 8j to 8j + 7 of
A[x][y]. The little-endian order in a lane is the spec's general knowledge (notes/assumptions/8.md, PRESUMED). -/
def Obligations.BytesGoToLanesLittleEndian : Prop :=
  ∀ w ∈ [8, 16, 32, 64], ∀ (Z : List Byte), Z.length = 25 * (w / 8) → ∀ (x y : Fin 5) (j : Nat), j < w / 8 →
    some (((lanesOf w Z).lane x y).extractLsb' (8 * j) 8) = Z[(x.val + 5 * y.val) * (w / 8) + j]?

/-- 20_memory.md R55, 44_sponge_absorber.md R190: absorbing a block ⊕es it into the first rr bytes of the serialized
state, leaves the capacity bytes as they are, and permutes. -/
def Obligations.AbsorbTouchesOnlyTheRateBytes : Prop :=
  ∀ (C : SpongeConfig) (A : Lanes) (P : List Byte), C.Valid → A.inRange C.w → P.length = C.rr →
    absorbBlock C A P =
      keccakF C.w (lanesOf C.w
        (List.zipWith (· ^^^ ·) ((bytesOf C.w A).take C.rr) P ++ (bytesOf C.w A).drop C.rr))

/-! ### Command encoding -/

/-- 30_encoding.md R70 to R75: decoding a frame gives back its command, whatever follows it in the stream. -/
def Obligations.DecodeInvertsEncode : Prop :=
  ∀ (i : Instr) (rest : List Byte), i.wellFormed = true → decode (encode i ++ rest) = .frame i rest

/-- 30_encoding.md R72, R77: a command is read only from its own frame, and the next frame begins right after it. -/
def Obligations.DecodedFrameIsItsEncoding : Prop :=
  ∀ (i : Instr) (bs rest : List Byte), decode bs = .frame i rest → i.wellFormed = true ∧ bs = encode i ++ rest

/-- 30_encoding.md R76: of all header words exactly 1 to 7 are legal; any other is an illegal frame of four bytes, and
the bytes after it are the start of the next frame. -/
def Obligations.IllegalHeaders : Prop :=
  ∀ (h : Word) (rest : List Byte),
    (∃ why, decode (wordBytes h ++ rest) = .illegal why rest) ↔ (h.toNat = 0 ∨ 7 < h.toNat)

/-- 30_encoding.md R77: while a frame's last byte has not arrived, the decoder waits. -/
def Obligations.DecoderWaitsForTheWholeFrame : Prop :=
  (∀ bs : List Byte, bs.length < 4 → decode bs = .incomplete) ∧
  (∀ (i : Instr) (k : Nat), i.wellFormed = true → k < (encode i).length → decode ((encode i).take k) = .incomplete)

/-- 30_encoding.md R73: the frame lengths of the seven commands. -/
def Obligations.FrameLengths : Prop :=
  (∀ r c n, (encode (.init r c n)).length = 16) ∧
  (∀ chunk, (encode (.update chunk)).length = 8 + chunk.length) ∧
  (∀ chunk, (encode (.digest chunk)).length = 8 + chunk.length) ∧
  (encode .squeeze).length = 4 ∧
  (∀ t, (encode (.simpleSqueeze t)).length = 8) ∧
  (∀ t, (encode (.fastSqueeze t)).length = 8) ∧
  (∀ k, (encode (.readReg k)).length = 8)

/-- 30_encoding.md R70, R72: some of the spec's own frames, written out byte by byte (95_test_vectors.md section
2.15). -/
def Obligations.SpecFramesDecode : Prop :=
  decode [0x01, 0, 0, 0, 0x40, 0x04, 0, 0, 0, 0x02, 0, 0, 0, 0x01, 0, 0] = .frame (.init 1088 512 256) [] ∧
  decode [0x02, 0, 0, 0, 2, 0, 0, 0, 0x61, 0x62] = .frame (.update [0x61, 0x62]) [] ∧
  decode [0x03, 0, 0, 0, 3, 0, 0, 0, 0x61, 0x62, 0x63] = .frame (.digest [0x61, 0x62, 0x63]) [] ∧
  decode [0x04, 0, 0, 0] = .frame .squeeze [] ∧
  decode [0x05, 0, 0, 0, 1, 0, 0, 0] = .frame (.simpleSqueeze 1) [] ∧
  decode [0x06, 0, 0, 0, 1, 0, 0, 0] = .frame (.fastSqueeze 1) [] ∧
  decode [0x07, 0, 0, 0, 0, 0, 0, 0] = .frame (.readReg 0) []

/-! ### The step: frames, waiting, reset -/

/-- 20_memory.md R57, R58; 30_encoding.md R77: when the bytes at the input are the whole frame of a command, a step is
that command on the state with the frame taken off the input. Only a reset that arrives while the command runs is
excepted (`RunningCommandIsAbandonedByReset`). That the input is a list of events in State, and that a whole frame runs
before a reset between commands that stands behind it, are the model's choice (notes/assumptions/1.md, 15.md). -/
def Obligations.StepRunsDecodedCommand : Prop :=
  ∀ (s : State) (i : Instr) (bs : List Byte) (later : List InEvent),
    decode bs = .frame i [] → s.inbox = bs.map .byte ++ later →
    (∀ (unread : List Byte) (after : List InEvent), later ≠ unread.map .byte ++ .resetMidCommand unread.length :: after) →
    step s = exec i { s with inbox := later }

/-- 60_exceptions.md R263, 30_encoding.md R76: the effect of an illegal header. That the input is a list of events and
the output a list of bytes in State, and that the frame runs before a reset between commands that stands behind it, are
the model's choice (notes/assumptions/1.md, 2.md, 15.md). -/
def Obligations.StepRejectsIllegalFrame : Prop :=
  ∀ (s : State) (why : IllegalHeader) (bs : List Byte) (later : List InEvent),
    decode bs = .illegal why [] → s.inbox = bs.map .byte ++ later →
    (∀ (unread : List Byte) (after : List InEvent), later ≠ unread.map .byte ++ .resetMidCommand unread.length :: after) →
    step s = .next { s with
      inbox := later
      lastStatus := .illegalCommand
      errSeen := true
      outbox := s.outbox ++ [0x01, 0, 0, 0, 0, 0, 0, 0] }

/-- 30_encoding.md R77: while the stream does not hold a whole frame the block takes no step of its own; the model's
step leaves the state as it is (notes/assumptions/3.md). -/
def Obligations.StepWaitsForBytes : Prop :=
  ∀ (s : State) (bs : List Byte), decode bs = .incomplete → s.inbox = bs.map .byte → step s = .next s

/-- 70_reset_and_hazards.md R290: reset between commands. A partly received frame is dropped, the next byte begins a new
frame, no response is produced. That a reset marked for a command does the same where no command's frame ended is the
model's choice (notes/assumptions/4.md). -/
def Obligations.ResetDiscardsPartialFrame : Prop :=
  ∀ (s : State) (bs : List Byte) (e : InEvent) (later : List InEvent),
    decode bs = .incomplete → (e = .reset ∨ ∃ unread, e = .resetMidCommand unread) → s.inbox = bs.map .byte ++ e :: later →
    step s = .next { State.reset with inbox := later, outbox := s.outbox }

/-- 70_reset_and_hazards.md R291, R296: a reset that arrives while a command runs, whatever bytes have arrived behind the
command meanwhile. The command has no effect and no response. How the input tells which command the reset meets, and that
whole frames among the unread bytes go with it, are the model's choice (notes/assumptions/4.md, 15.md). -/
def Obligations.RunningCommandIsAbandonedByReset : Prop :=
  ∀ (s : State) (bs unread : List Byte) (later : List InEvent),
    ((∃ i, decode bs = .frame i []) ∨ ∃ why, decode bs = .illegal why []) →
    s.inbox = bs.map .byte ++ unread.map .byte ++ .resetMidCommand unread.length :: later →
    step s = .next { State.reset with inbox := later, outbox := s.outbox }

/-! ### keccak_f_round -/

/-- 40_keccak_f_round.md R101: θ, with the column parities C written out. -/
def Obligations.ThetaLanes : Prop :=
  ∀ (w : Nat) (A : Lanes) (x y : Fin 5),
    let C := fun u : Fin 5 => A.lane u 0 ^^^ A.lane u 1 ^^^ A.lane u 2 ^^^ A.lane u 3 ^^^ A.lane u 4
    (theta w A).lane x y = A.lane x y ^^^ (C (x - 1) ^^^ rotl w (C (x + 1)) 1)

/-- 40_keccak_f_round.md R102: ρ and π, in the rule's own direction. -/
def Obligations.RhoPiMovesLanes : Prop :=
  (∀ (w : Nat) (A : Lanes) (x y : Fin 5),
    (rhoPi w A).lane y (2 * x + 3 * y) = rotl w (A.lane x y) (rotationOffset x y)) ∧
  Function.Bijective fun p : Fin 5 × Fin 5 => (p.2, 2 * p.1 + 3 * p.2)

/-- 40_keccak_f_round.md R103: χ, bit by bit: within w bits it is B ⊕ (¬B' ∧ B''), and no bit from w up is set. -/
def Obligations.ChiLanes : Prop :=
  ∀ (w : Nat) (B : Lanes) (x y : Fin 5) (i : Nat), w ≤ 64 → B.inRange w →
    ((chi w B).lane x y).getLsbD i =
      (decide (i < w) &&
        ((B.lane x y).getLsbD i ^^ (!(B.lane (x + 1) y).getLsbD i && (B.lane (x + 2) y).getLsbD i)))

/-- 40_keccak_f_round.md R104: ι changes lane (0, 0) and no other. -/
def Obligations.IotaLanes : Prop :=
  ∀ (A : Lanes) (rc : Lane) (x y : Fin 5),
    (iota A rc).lane 0 0 = A.lane 0 0 ^^^ rc ∧ ((x, y) ≠ (0, 0) → (iota A rc).lane x y = A.lane x y)

/-- 40_keccak_f_round.md R105: the offset table agrees with its generating recurrence. Both are the spec's general
knowledge (notes/assumptions/8.md). -/
def Obligations.RotationOffsetsFollowTheRecurrence : Prop :=
  rotationOffset 0 0 = 0 ∧
  ∀ t < 24, rotationOffset (offsetWalk t).1 (offsetWalk t).2 = (t + 1) * (t + 2) / 2 % 64

/-- 40_keccak_f_round.md R106: bit 2^j − 1 of RC[i] is rc(j + 7i) for j = 0..6, and every other bit is 0. Both are the
spec's general knowledge (notes/assumptions/8.md). -/
def Obligations.RoundConstantsFollowTheLfsr : Prop :=
  roundConstants.length = 24 ∧
  ∀ i < 24, ∀ p < 64, (roundConstants.getD i 0).getLsbD p =
    (List.range 7).any fun j => decide (p = 2 ^ j - 1) && lfsrOutput (j + 7 * i)

/-! ### keccak_permutation -/

/-- 41_keccak_permutation.md R131, 40_keccak_f_round.md R107, R108: keccakF is the rounds 0 to nr − 1 in order, each
ι ∘ χ ∘ ρπ ∘ θ with the truncated constant. -/
def Obligations.KeccakIsItsRoundsInOrder : Prop :=
  ∀ (w : Nat) (A : Lanes), ∃ state : Nat → Lanes,
    state 0 = A ∧
    (∀ i, i < 12 + 2 * Nat.log2 w →
      state (i + 1) = iota (chi w (rhoPi w (theta w (state i)))) (roundConstants.getD i 0 &&& laneMask w)) ∧
    keccakF w A = state (12 + 2 * Nat.log2 w)

/-- 00_scope.md R8, 10_state.md R21: the permutation and the absorption of a block, however long, yield lanes in
[0, 2^w). -/
def Obligations.PermutationKeepsLanesInRange : Prop :=
  (∀ (w : Nat) (A : Lanes), 0 < w → w ≤ 64 → A.inRange w → (keccakF w A).inRange w) ∧
  ∀ (C : SpongeConfig) (A : Lanes) (P : List Byte), C.Valid → A.inRange C.w → (absorbBlock C A P).inRange C.w

/-! ### pad10star1_engine -/

/-- 42_pad10star1_engine.md R151 to R153: the two branches, by the message length modulo rr. The start marker 0x01, and
so the byte 0x81, is the spec's general knowledge (notes/assumptions/8.md, PRESUMED). -/
def Obligations.PaddingBranches : Prop :=
  ∀ (M : List Byte) (r : Nat), 8 ≤ r → r % 8 = 0 →
    (M.length % (r / 8) = r / 8 - 1 → pad M r = M ++ [0x81]) ∧
    (M.length % (r / 8) ≠ r / 8 - 1 →
      pad M r = M ++ [0x01] ++ List.replicate (r / 8 - M.length % (r / 8) - 2) 0x00 ++ [0x80])

/-- 42_pad10star1_engine.md R154: the padding laws, the last one on bit strings: '1', the least number of '0's that
makes the length a multiple of r, '1', and nothing else. The bit order in a byte and the start marker are the spec's
general knowledge (notes/assumptions/8.md, PRESUMED). -/
def Obligations.PaddingLaws : Prop :=
  ∀ (M : List Byte) (r : Nat), 8 ≤ r → r % 8 = 0 →
    (pad M r).length % (r / 8) = 0 ∧
    M.length + 1 ≤ (pad M r).length ∧ (pad M r).length ≤ M.length + r / 8 ∧
    (pad M r).take M.length = M ∧
    ∃ j, bitString (pad M r) = bitString M ++ [true] ++ List.replicate j false ++ [true] ∧
      (8 * M.length + j + 2) % r = 0 ∧ ∀ j' < j, (8 * M.length + j' + 2) % r ≠ 0

/-! ### Sponge control -/

/-- 43_sponge_control.md R170: INIT with a configuration R172 accepts, written as r + c = 25·2^l with l ≤ 6. It
completes in every phase, and everything but the inbox and the sticky bit is set. -/
def Obligations.InitStartsComputation : Prop :=
  ∀ (s : State) (r c n : Word) (l : Nat),
    0 < r.toNat → 0 < c.toNat → 0 < n.toNat → r.toNat % 8 = 0 → c.toNat % 8 = 0 →
    r.toNat + c.toNat = 25 * 2 ^ l → l ≤ 6 →
    exec (.init r c n) s = .next { s with
      phase := .absorbing
      cfg := some { r := r.toNat, c := c.toNat, n := n.toNat, b := 25 * 2 ^ l, w := 2 ^ l, l := l,
                    nr := 12 + 2 * l, wmod := 2 ^ (2 ^ l) - 1, rr := r.toNat / 8 }
      lanes := Vector.replicate 25 0
      buf := []
      lastStatus := .ok
      outbox := s.outbox ++ [0, 0, 0, 0, 0, 0, 0, 0] }

/-- 43_sponge_control.md R172, 60_exceptions.md R265: INIT with a configuration R172 does not accept. The status is that
of the first failing check, and the running computation ends. -/
def Obligations.InitRejectsBadConfiguration : Prop :=
  ∀ (s : State) (r c n : Word),
    let failed := fun (st : Status) (code : Byte) => { s with
      phase := .unconfigured
      cfg := none
      lanes := Vector.replicate 25 0
      buf := []
      lastStatus := st
      errSeen := true
      outbox := s.outbox ++ [code, 0, 0, 0, 0, 0, 0, 0] }
    let check12 := r.toNat = 0 ∨ c.toNat = 0 ∨ n.toNat = 0 ∨ r.toNat % 8 ≠ 0 ∨ c.toNat % 8 ≠ 0 ∨
      (r.toNat + c.toNat) % 25 ≠ 0
    (check12 → exec (.init r c n) s = .next (failed .configError 0x03)) ∧
    (¬check12 → (∀ l, l ≤ 6 → r.toNat + c.toNat ≠ 25 * 2 ^ l) →
      exec (.init r c n) s = .next (failed .unsupportedWordSize 0x04))

/-- 43_sponge_control.md R171: what INIT leaves does not depend on what the sponge held before. -/
def Obligations.InitForgetsThePast : Prop :=
  ∀ (r c n : Word) (s t : State), s.inbox = t.inbox → s.outbox = t.outbox → s.errSeen = t.errSeen →
    exec (.init r c n) s = exec (.init r c n) t

/-- 43_sponge_control.md R173, 10_state.md R28 to R30: READ_REG of each register, in every phase: it answers the
register's value and changes nothing else, its own status fields included. -/
def Obligations.ReadRegAnswersTheRegister : Prop :=
  ∀ (s : State) (k : Word), k.toNat ≤ 6 →
    let field := fun f : SpongeConfig → Nat => (s.cfg.map f).getD 0
    let registers := [s.phase.code + 2 ^ 8 * s.lastStatus.code + 2 ^ 16 * s.errSeen.toNat, field (·.r), field (·.c),
      field (·.n), field (·.w), field (·.nr), 0x4B430001]
    exec (.readReg k) s = .next { s with
      outbox := s.outbox ++ [0, 0, 0, 0, 4, 0, 0, 0] ++ leBytes 4 (registers.getD k.toNat 0) }

/-- 43_sponge_control.md R173, 60_exceptions.md R263: READ_REG of a reserved number, in every phase. -/
def Obligations.ReadRegOfReservedNumber : Prop :=
  ∀ (s : State) (k : Word), 7 ≤ k.toNat →
    exec (.readReg k) s = .next { s with
      lastStatus := .illegalCommand
      errSeen := true
      outbox := s.outbox ++ [0x01, 0, 0, 0, 0, 0, 0, 0] }

/-! ### sponge_absorber -/

/-- 44_sponge_absorber.md R191: UPDATE in ABSORBING: the largest multiple of the super-block (r·b)/8 is absorbed block
by block, the rest stays buffered, and nothing else changes but the status. -/
def Obligations.UpdateAbsorbsWholeSuperBlocks : Prop :=
  ∀ (s : State) (C : SpongeConfig) (chunk : List Byte), s.phase = .absorbing → s.cfg = some C →
    let M := s.buf ++ chunk
    let SB := C.r * C.b / 8
    let L := M.length / SB * SB
    exec (.update chunk) s = .next { s with
      lanes := (List.range (L / C.rr)).foldl
        (fun A j => absorbBlock C A ((M.drop (j * C.rr)).take C.rr)) s.lanes
      buf := M.drop L
      lastStatus := .ok
      outbox := s.outbox ++ [0, 0, 0, 0, 0, 0, 0, 0] }

/-- 44_sponge_absorber.md R191, corner cases: an UPDATE that does not complete a super-block only buffers; an empty one
changes nothing. -/
def Obligations.ShortUpdateOnlyBuffers : Prop :=
  ∀ (s : State) (C : SpongeConfig) (chunk : List Byte), s.phase = .absorbing → s.cfg = some C →
    s.buf.length + chunk.length < C.r * C.b / 8 →
    exec (.update chunk) s = .next { s with
      buf := s.buf ++ chunk
      lastStatus := .ok
      outbox := s.outbox ++ [0, 0, 0, 0, 0, 0, 0, 0] }

/-- 44_sponge_absorber.md R192: the buffer bound after every UPDATE, and the bytes an implementation's buffer must
hold. -/
def Obligations.UpdateKeepsBufferBelowSuperBlock : Prop :=
  ∀ (s t : State) (C : SpongeConfig) (chunk : List Byte), s.phase = .absorbing → s.cfg = some C → C.Valid →
    exec (.update chunk) s = .next t →
    t.buf.length < C.r * C.b / 8 ∧ t.buf.length ≤ Config.bufCap C.r C.b ∧ t.buf.length ≤ 318399

/-- 44_sponge_absorber.md R193: a message streamed in any chunks gives the DIGEST response and the state of the message
sent whole, but for the chunks' own responses, from any state that is ready for a message's first byte. -/
def Obligations.ChunkingDoesNotMatter : Prop :=
  ∀ (s : State) (C : SpongeConfig) (chunks : List (List Byte)),
    s.phase = .absorbing → s.cfg = some C → C.Valid → s.buf = [] →
    ∃ (t : State) (response : List Byte),
      exec (.digest chunks.flatten) s = .next { t with outbox := s.outbox ++ response } ∧
      runCommands (chunks.map .update ++ [.digest []]) s =
        .next { t with outbox := s.outbox ++ List.replicate (8 * chunks.length) 0 ++ response }

/-- 44_sponge_absorber.md R194: two cores that differ in their super-block constants alone, each a positive multiple of
rr, give the same responses to every sequence of commands, from every state between commands. -/
def Obligations.BatchSizeIsUnobservable : Prop :=
  ∀ (sb sb' : SpongeConfig → Nat),
    (∀ C : SpongeConfig, C.Valid → 0 < sb C ∧ C.rr ∣ sb C) → (∀ C : SpongeConfig, C.Valid → 0 < sb' C ∧ C.rr ∣ sb' C) →
    ∀ (s : State) (commands : List Instr), s.Inv →
      ∃ t t', runWithBatch sb commands s = .next t ∧ runWithBatch sb' commands s = .next t' ∧
        t.outbox = t'.outbox ∧ t.phase = t'.phase ∧ t.cfg = t'.cfg ∧ t.lastStatus = t'.lastStatus ∧
        t.errSeen = t'.errSeen

/-! ### sponge_squeezer -/

/-- 45_sponge_squeezer.md R210, R211: squeeze_tail under a valid configuration: ⌈n/r⌉ − 1 permutations and ⌈n/8⌉ bytes,
whose first n bits are those of the blocks, each the first rr bytes of a serialized state, and no bit from n up is set.
Which bits are the first ones rests on the bit order in a byte, 20_memory.md R52, the spec's general knowledge
(notes/assumptions/8.md, PRESUMED). -/
def Obligations.SqueezeTailExtractsOneDigest : Prop :=
  ∀ (C : SpongeConfig) (A : Lanes), C.Valid →
    let tail := squeezeTail C A
    let blocks := (List.range ((C.n + C.r - 1) / C.r)).flatMap fun m => (bytesOf C.w ((keccakF C.w)^[m] A)).take C.rr
    tail.1 = (keccakF C.w)^[(C.n + C.r - 1) / C.r - 1] A ∧
    tail.2.length = (C.n + 7) / 8 ∧
    (∀ i < C.n, (bitString tail.2)[i]? = (bitString blocks)[i]?) ∧
    ∀ i, C.n ≤ i → i < 8 * ((C.n + 7) / 8) → (bitString tail.2)[i]? = some false

/-- 10_state.md R22, 20_memory.md R55: the capacity is never output. States that serialize to the same first rr bytes give
the same block, and the same digest where one block holds it. -/
def Obligations.CapacityIsNeverOutput : Prop :=
  ∀ (C : SpongeConfig) (A B : Lanes), C.Valid → (bytesOf C.w A).take C.rr = (bytesOf C.w B).take C.rr →
    outBlock C A = outBlock C B ∧ (C.n ≤ C.r → (squeezeTail C A).2 = (squeezeTail C B).2)

/-- 45_sponge_squeezer.md R212: DIGEST in ABSORBING under a valid configuration. -/
def Obligations.DigestPadsAbsorbsAndSqueezes : Prop :=
  ∀ (s : State) (C : SpongeConfig) (last : List Byte), s.phase = .absorbing → s.cfg = some C → C.Valid →
    let P := pad (s.buf ++ last) C.r
    let S0 := (List.range (P.length / C.rr)).foldl (fun A j => absorbBlock C A ((P.drop (j * C.rr)).take C.rr)) s.lanes
    exec (.digest last) s = .next { s with
      phase := .squeezing
      lanes := (keccakF C.w)^[(C.n + C.r - 1) / C.r - 1] S0
      buf := []
      lastStatus := .ok
      outbox := s.outbox ++ [0, 0, 0, 0] ++ leBytes 4 ((C.n + 7) / 8) ++ streamOutput C S0 0 }

/-- 45_sponge_squeezer.md R213: SQUEEZE in SQUEEZING under a valid configuration: one permutation, then one digest. -/
def Obligations.SqueezePermutesAndExtracts : Prop :=
  ∀ (s : State) (C : SpongeConfig), s.phase = .squeezing → s.cfg = some C → C.Valid →
    exec .squeeze s = .next { s with
      lanes := (keccakF C.w)^[(C.n + C.r - 1) / C.r] s.lanes
      lastStatus := .ok
      outbox := s.outbox ++ [0, 0, 0, 0] ++ leBytes 4 ((C.n + 7) / 8) ++ streamOutput C (keccakF C.w s.lanes) 0 }

/-- 45_sponge_squeezer.md R214: SIMPLE_SQUEEZE in SQUEEZING, for every count, 0 included. -/
def Obligations.SimpleSqueezePermutes : Prop :=
  ∀ (s : State) (C : SpongeConfig) (times : Word), s.phase = .squeezing → s.cfg = some C →
    exec (.simpleSqueeze times) s = .next { s with
      lanes := (keccakF C.w)^[times.toNat] s.lanes
      lastStatus := .ok
      outbox := s.outbox ++ [0, 0, 0, 0, 0, 0, 0, 0] }

/-- 45_sponge_squeezer.md R215: FAST_SQUEEZE in SQUEEZING, for every count: ⌈n/r⌉ permutations per digest-equivalent. -/
def Obligations.FastSqueezePermutes : Prop :=
  ∀ (s : State) (C : SpongeConfig) (times : Word), s.phase = .squeezing → s.cfg = some C →
    exec (.fastSqueeze times) s = .next { s with
      lanes := (keccakF C.w)^[times.toNat * ((C.n + C.r - 1) / C.r)] s.lanes
      lastStatus := .ok
      outbox := s.outbox ++ [0, 0, 0, 0, 0, 0, 0, 0] }

/-- 45_sponge_squeezer.md R216: DIGEST and `q` SQUEEZEs answer the outputs 0 to q of the stream Z, in order. -/
def Obligations.SqueezesReadTheOutputStream : Prop :=
  ∀ (s : State) (C : SpongeConfig) (last : List Byte) (q : Nat),
    s.phase = .absorbing → s.cfg = some C → C.Valid →
    let S0 := absorbPadded C s.lanes (s.buf ++ last)
    ∃ t, runCommands (.digest last :: List.replicate q .squeeze) s = .next t ∧
      t.lanes = (keccakF C.w)^[(q + 1) * ((C.n + C.r - 1) / C.r) - 1] S0 ∧
      t.outbox = s.outbox ++ (List.range (q + 1)).flatMap fun j =>
        [0, 0, 0, 0] ++ leBytes 4 ((C.n + 7) / 8) ++ streamOutput C S0 j

/-- 45_sponge_squeezer.md R216: FAST_SQUEEZE t and SQUEEZE leave the lanes and return the output of the (t+1)-th
SQUEEZE. -/
def Obligations.FastSqueezeSkipsOutputs : Prop :=
  ∀ (s : State) (C : SpongeConfig) (times : Word), s.phase = .squeezing → s.cfg = some C → C.Valid →
    ∃ t u, runCommands [.fastSqueeze times, .squeeze] s = .next t ∧
      runCommands (List.replicate (times.toNat + 1) .squeeze) s = .next u ∧
      t.lanes = u.lanes ∧
      t.outbox.drop (t.outbox.length - (C.n + 7) / 8) = u.outbox.drop (u.outbox.length - (C.n + 7) / 8)

/-- 45_sponge_squeezer.md R217: DIGEST's output for n bits agrees with that for n' > n bits on the first ⌊n/8⌋ bytes. -/
def Obligations.DigestStableUnderLongerOutput : Prop :=
  ∀ (s t t' : State) (r c n n' : Nat) (last : List Byte),
    s.phase = .absorbing → s.cfg = some (deriveConfig r c n) → (deriveConfig r c n).Valid →
    (deriveConfig r c n').Valid → n < n' →
    exec (.digest last) s = .next t →
    exec (.digest last) { s with cfg := some (deriveConfig r c n') } = .next t' →
    (t.outbox.drop (s.outbox.length + 8)).take (n / 8) = (t'.outbox.drop (s.outbox.length + 8)).take (n / 8)

/-! ### Host protocol -/

/-- 46_host_protocol.md R241: one iteration with squeeze count j ≥ 1, the message sent as one DIGEST, from any state, ends
with the j-th output of the stream. The host's sequence as a function, its limit j < 2^32, and the one DIGEST for a message
no frame can carry, are the model's choice (notes/assumptions/13.md). -/
def Obligations.IterationEndsWithJthOutput : Prop :=
  ∀ (s : State) (r c n : Word) (j : Nat) (M : List Byte),
    validate r.toNat c.toNat n.toNat = .ok → 1 ≤ j → j < 2 ^ 32 →
    let C := deriveConfig r.toNat c.toNat n.toNat
    ∃ t, runCommands (pseudoHash r c n M ++ pseudoSqueezeTo j) s = .next t ∧
      lastDigest n t = streamOutput C (absorbPadded C Lanes.zero M) (j - 1)

/-! ### Errors and status -/

/-- 60_exceptions.md R262, R264: the five commands outside their phase: nothing changes but the status, and a payload
is dropped. -/
def Obligations.OutOfPhaseCommandsChangeNothing : Prop :=
  ∀ s : State,
    let refused := Host.Outcome.next { s with
      lastStatus := .sequenceError
      errSeen := true
      outbox := s.outbox ++ [0x02, 0, 0, 0, 0, 0, 0, 0] }
    (s.phase ≠ .absorbing → (∀ bs, exec (.update bs) s = refused) ∧ ∀ bs, exec (.digest bs) s = refused) ∧
    (s.phase ≠ .squeezing → exec .squeeze s = refused ∧ (∀ t, exec (.simpleSqueeze t) s = refused) ∧
      ∀ t, exec (.fastSqueeze t) s = refused)

/-- 30_encoding.md R78, 60_exceptions.md R266: every command produces exactly one response, an error's without data, and
updates the status fields by it. -/
def Obligations.EveryCommandRespondsOnce : Prop :=
  ∀ (i : Instr) (s t : State), exec i s = .next t →
    ∃ (st : Status) (data : List Byte),
      t.outbox = s.outbox ++ leBytes 4 st.code ++ leBytes 4 data.length ++ data ∧
      (st ≠ .ok → data = []) ∧
      ((∃ k, i = .readReg k) ∧ st = .ok → t.lastStatus = s.lastStatus) ∧
      (¬((∃ k, i = .readReg k) ∧ st = .ok) → t.lastStatus = st) ∧
      t.errSeen = (s.errSeen || decide (st ≠ .ok)) ∧
      t.inbox = s.inbox

/-- 60_exceptions.md R266, 70_reset_and_hazards.md R290: no step clears the sticky bit unless a reset is at the input. -/
def Obligations.OnlyResetClearsErrSeen : Prop :=
  ∀ s t : State, (∀ e ∈ s.inbox, ∃ b, e = .byte b) → step s = .next t → s.errSeen = true →
    t.errSeen = true

/-- 70_reset_and_hazards.md R294, 10_state.md R25: only INIT enters ABSORBING, and only DIGEST enters SQUEEZING. -/
def Obligations.PhaseTransitions : Prop :=
  ∀ (i : Instr) (s t : State), exec i s = .next t → t.phase ≠ s.phase →
    (t.phase = .absorbing → ∃ r c n, i = .init r c n) ∧
    (t.phase = .squeezing → s.phase = .absorbing ∧ ∃ bs, i = .digest bs) ∧
    (t.phase = .unconfigured → ∃ r c n, i = .init r c n)
end

