-- ==== Sys2Proof/Machine/Assembler.lean ====
section
/-! DEFINITION. The command syntax of 30_encoding.md R79 with the pseudo-commands of R80: one line of text to the
commands it stands for. It is the host's notation, and nothing in `step` uses it. -/

namespace Sys2Proof.Machine

/-- A token of a line. -/
inductive Token where
  /-- A mnemonic, a register name or the word zeros. -/
  | name (cs : List Char)
  /-- A decimal or 0x-hex number. -/
  | number (v : Nat)
  /-- A byte string: quoted text or x-quoted hex pairs. -/
  | bytes (bs : List Byte)
  | comma
  | openParen
  | closeParen
  | plusPlus
  deriving DecidableEq, Repr

/-- The value of a hex digit. -/
def hexDigit (c : Char) : Option Nat :=
  if '0' ≤ c ∧ c ≤ '9' then some (c.toNat - 48)
  else if 'a' ≤ c ∧ c ≤ 'f' then some (c.toNat - 87)
  else if 'A' ≤ c ∧ c ≤ 'F' then some (c.toNat - 55)
  else none

/-- A numeral in a base, from an accumulator. -/
def numeral (base : Nat) : Nat → List Char → Option Nat
  | acc, [] => some acc
  | acc, c :: cs =>
    match hexDigit c with
    | some d => if d < base then numeral base (acc * base + d) cs else none
    | none => none

/-- A number: decimal, or hex after 0x. -/
def readNumber : List Char → Option Nat
  | '0' :: 'x' :: c :: cs => numeral 16 0 (c :: cs)
  | [] => none
  | cs => numeral 10 0 cs

/-- Hex pairs as bytes. -/
def readHexPairs : List Char → Option (List Byte)
  | [] => some []
  | a :: b :: cs =>
    match hexDigit a, hexDigit b, readHexPairs cs with
    | some x, some y, some bs => some (BitVec.ofNat 8 (16 * x + y) :: bs)
    | _, _, _ => none
  | _ => none

/-- The ASCII codes of a text. -/
def readText : List Char → Option (List Byte)
  | [] => some []
  | c :: cs =>
    match readText cs with
    | some bs => if c.toNat < 128 then some (BitVec.ofNat 8 c.toNat :: bs) else none
    | none => none

/-- Split a list at the first double quote, which is dropped. -/
def untilQuote : List Char → Option (List Char × List Char)
  | [] => none
  | c :: cs =>
    if c.toNat = 34 then some ([], cs)
    else match untilQuote cs with
      | some (inside, after) => some (c :: inside, after)
      | none => none

/-- A character of a name or a number. -/
def isNameChar (c : Char) : Bool := c.isAlphanum || c == '_'

/-- The tokens of a line up to its comment; `fuel` bounds the tokens. -/
def tokens : Nat → List Char → Option (List Token)
  | 0, _ => none
  | _ + 1, [] => some []
  | fuel + 1, c :: cs =>
    if c = ';' then some []
    else if c.isWhitespace then tokens fuel cs
    else if c = ',' then (tokens fuel cs).map (.comma :: ·)
    else if c = '(' then (tokens fuel cs).map (.openParen :: ·)
    else if c = ')' then (tokens fuel cs).map (.closeParen :: ·)
    else if c.toNat = 34 then
      match untilQuote cs with
      | some (inside, after) =>
        match readText inside, tokens fuel after with
        | some bs, some ts => some (.bytes bs :: ts)
        | _, _ => none
      | none => none
    else if c = 'x' ∧ cs.head?.any (fun d => d.toNat = 34) then
      match untilQuote cs.tail with
      | some (inside, after) =>
        match readHexPairs inside, tokens fuel after with
        | some bs, some ts => some (.bytes bs :: ts)
        | _, _ => none
      | none => none
    else if c = '+' ∧ cs.head? = some '+' then (tokens fuel cs.tail).map (.plusPlus :: ·)
    else if isNameChar c then
      let word := (c :: cs).takeWhile isNameChar
      let after := (c :: cs).dropWhile isNameChar
      match tokens fuel after with
      | some ts =>
        if c.isDigit then (readNumber word).map (.number · :: ts) else some (.name word :: ts)
      | none => none
    else none

/-- The `bytes` of 30_encoding.md R79. -/
def parseBytes : List Token → Option (List Byte)
  | [.bytes bs] => some bs
  | .bytes bs :: .plusPlus :: ts => (parseBytes ts).map (bs ++ ·)
  | [.name z, .openParen, .number k, .closeParen] => if z = "zeros".toList then some (zeros k) else none
  | .name z :: .openParen :: .number k :: .closeParen :: .plusPlus :: ts =>
    if z = "zeros".toList then (parseBytes ts).map (zeros k ++ ·) else none
  | _ => none

/-- An operand below 2^32 as an argument word. -/
def operandWord (v : Nat) : Option Word := if v < 2 ^ 32 then some (BitVec.ofNat 32 v) else none

/-- INIT's three operands. -/
def parseConfig : List Token → Option (Word × Word × Word)
  | [.number r, .comma, .number c, .comma, .number n] => do
    return (← operandWord r, ← operandWord c, ← operandWord n)
  | _ => none

/-- READ_REG's operand: a number or a register's name (10_state.md R28). -/
def parseRegister : List Token → Option Word
  | [.number k] => operandWord k
  | [.name z] =>
    if z = "STATUS".toList then some 0
    else if z = "CFG_R".toList then some 1
    else if z = "CFG_C".toList then some 2
    else if z = "CFG_N".toList then some 3
    else if z = "CFG_W".toList then some 4
    else if z = "CFG_NR".toList then some 5
    else if z = "ID".toList then some 6
    else none
  | _ => none

/-- A single count operand. -/
def parseCount : List Token → Option Nat
  | [.number t] => some t
  | _ => none

/-- The payload of DIGEST: none written is the empty one. -/
def parseLastChunk : List Token → Option (List Byte)
  | [] => some []
  | ts => parseBytes ts

/-- The commands of a mnemonic with its operands: one command, or a pseudo-command's expansion (30_encoding.md R79,
R80). A SQUEEZE_TO count of 2^32 or more is refused (DESIGN CHOICE, notes/assumptions/13.md). -/
def assembleTokens (mnemonic : List Char) (ts : List Token) : Option (List Instr) :=
  if mnemonic = "INIT".toList then (parseConfig ts).map fun a => [.init a.1 a.2.1 a.2.2]
  else if mnemonic = "UPDATE".toList then (parseBytes ts).map fun bs => [.update bs]
  else if mnemonic = "DIGEST".toList then (parseLastChunk ts).map fun bs => [.digest bs]
  else if mnemonic = "SQUEEZE".toList then (if ts = [] then some [.squeeze] else none)
  else if mnemonic = "SIMPLE_SQUEEZE".toList then
    ((parseCount ts).bind operandWord).map fun t => [.simpleSqueeze t]
  else if mnemonic = "FAST_SQUEEZE".toList then ((parseCount ts).bind operandWord).map fun t => [.fastSqueeze t]
  else if mnemonic = "READ_REG".toList then (parseRegister ts).map fun k => [.readReg k]
  else if mnemonic = "HASH".toList then
    match (parseConfig (ts.take 5)), ts.drop 5 with
    | some a, .comma :: rest => (parseBytes rest).map (pseudoHash a.1 a.2.1 a.2.2)
    | _, _ => none
  else if mnemonic = "KECCAK224".toList then (parseBytes ts).map pseudoKeccak224
  else if mnemonic = "KECCAK256".toList then (parseBytes ts).map pseudoKeccak256
  else if mnemonic = "KECCAK384".toList then (parseBytes ts).map pseudoKeccak384
  else if mnemonic = "KECCAK512".toList then (parseBytes ts).map pseudoKeccak512
  else if mnemonic = "SQUEEZE_TO".toList then
    (parseCount ts).bind fun j => if 1 ≤ j ∧ j < 2 ^ 32 then some (pseudoSqueezeTo j) else none
  else none

/-- The commands of one line (30_encoding.md R79, R80): none for a line that is not of the syntax, and no command for
an empty line. A line whose command has no frame, because its bytes operand is 2^32 bytes or longer (R75), is refused: R79
does not say what it means (DESIGN CHOICE, notes/assumptions/13.md). -/
def assembleLine (line : List Char) : Option (List Instr) :=
  match tokens (line.length + 1) line with
  | some [] => some []
  | some (.name z :: ts) => (assembleTokens z ts).filter (·.all Instr.wellFormed)
  | _ => none

end Sys2Proof.Machine
end

