-- ==== Sys2Proof/Laws/Assembler.lean ====
section
/-! SUPPORT. What a line of the command syntax yields. -/

namespace Sys2Proof.Machine

/-- Every command a line yields has a frame (30_encoding.md R79). -/
theorem wellFormed_of_assembleLine {line : List Char} {commands : List Instr} (h : assembleLine line = some commands)
    {i : Instr} (hi : i ∈ commands) : i.wellFormed = true := by
  unfold assembleLine at h
  split at h
  · cases h; simp at hi
  · exact List.all_eq_true.mp (Option.filter_eq_some_iff.mp h).2 i hi
  · cases h

end Sys2Proof.Machine
end

