-- ==== Sys2Proof/Laws/Bytes.lean ====
section
/-! SUPPORT. Byte order and words on the wire: what `leBytes`, `leNat`, `takeWord` and `slice` do. -/

namespace Sys2Proof

@[simp] theorem leBytes_length (k v : Nat) : (leBytes k v).length = k := by
  induction k generalizing v with
  | zero => rfl
  | succ k ih => simp [leBytes, ih]

theorem leNat_lt (bs : List Byte) : leNat bs < 256 ^ bs.length := by
  induction bs with
  | nil => simp [leNat]
  | cons b bs ih =>
    have hb := b.isLt
    simp only [leNat, List.length_cons, pow_succ]
    omega

/-- `le(le_k(v)) = v mod 2^(8k)` (00_scope.md R11). -/
theorem leNat_leBytes (k v : Nat) : leNat (leBytes k v) = v % 256 ^ k := by
  induction k generalizing v with
  | zero => simp [leBytes, leNat, Nat.mod_one]
  | succ k ih =>
    simp only [leBytes, leNat, ih, BitVec.toNat_ofNat]
    rw [show (2 : Nat) ^ 8 = 256 from rfl, pow_succ, Nat.mul_comm (256 ^ k), Nat.mod_mul]

/-- `le_k(le(M)) = M` for k = |M| (00_scope.md R11). -/
theorem leBytes_leNat (bs : List Byte) : leBytes bs.length (leNat bs) = bs := by
  induction bs with
  | nil => rfl
  | cons b bs ih =>
    have hb := b.isLt
    have h1 : (b.toNat + 256 * leNat bs) / 256 = leNat bs := by omega
    have h2 : BitVec.ofNat 8 (b.toNat + 256 * leNat bs) = b := by
      apply BitVec.eq_of_toNat_eq
      simp only [BitVec.toNat_ofNat]
      omega
    simp [leBytes, leNat, h1, h2, ih]

@[simp] theorem zeros_length (k : Nat) : (zeros k).length = k := by simp [zeros]

@[simp] theorem wordBytes_length (v : Word) : (wordBytes v).length = 4 := by simp [wordBytes]

theorem leBytes_mod (k v : Nat) : leBytes k (v % 256 ^ k) = leBytes k v := by
  rw [← leNat_leBytes k v]
  conv_lhs => rw [show k = (leBytes k v).length from (leBytes_length k v).symm]
  rw [leBytes_length, ← leBytes_length k v]
  conv_lhs => rw [leBytes_length]
  simpa using leBytes_leNat (leBytes k v)

theorem takeWord_eq_none {bs : List Byte} : takeWord bs = none ↔ bs.length < 4 := by
  match bs with
  | [] | [_] | [_, _] | [_, _, _] => simp [takeWord]
  | _ :: _ :: _ :: _ :: _ => simp [takeWord]

/-- A word is read back from its four bytes, whatever follows them. -/
theorem takeWord_leBytes (n : Nat) (rest : List Byte) (h : n < 2 ^ 32) :
    takeWord (leBytes 4 n ++ rest) = some (BitVec.ofNat 32 n, rest) := by
  have : leNat (leBytes 4 n) = n := by rw [leNat_leBytes]; exact Nat.mod_eq_of_lt (by omega)
  simp only [leBytes, List.cons_append, List.nil_append, takeWord] at this ⊢
  rw [this]

@[simp] theorem takeWord_wordBytes (v : Word) (rest : List Byte) :
    takeWord (wordBytes v ++ rest) = some (v, rest) := by
  simp [wordBytes, takeWord_leBytes _ _ v.isLt]

/-- A word that is read stands at the front of the stream. -/
theorem eq_of_takeWord {bs rest : List Byte} {v : Word} (h : takeWord bs = some (v, rest)) :
    bs = wordBytes v ++ rest := by
  match bs with
  | [] | [_] | [_, _] | [_, _, _] => simp [takeWord] at h
  | b0 :: b1 :: b2 :: b3 :: tl =>
    simp only [takeWord, Option.some.injEq, Prod.mk.injEq] at h
    obtain ⟨rfl, rfl⟩ := h
    have hlt : leNat [b0, b1, b2, b3] < 2 ^ 32 := lt_of_lt_of_eq (leNat_lt _) (by norm_num)
    have := leBytes_leNat [b0, b1, b2, b3]
    simp only [wordBytes, BitVec.toNat_ofNat, Nat.mod_eq_of_lt hlt]
    simpa using congrArg (· ++ tl) this.symm

namespace Machine

theorem slice_eq (M : List Byte) (i j : Nat) : slice M i j = (M.drop i).take (j - i) := by
  simp [slice, List.drop_take]

theorem slice_block (M : List Byte) (j rr : Nat) :
    slice M (j * rr) ((j + 1) * rr) = (M.drop (j * rr)).take rr := by
  rw [slice_eq, Nat.succ_mul, Nat.add_sub_cancel_left]

end Machine

end Sys2Proof
end

