-- ==== Sys2Proof/Laws/Lanes.lean ====
section
/-! SUPPORT. Reading a lane of a lane array that is written lane by lane, and the range of lanes. -/

namespace Sys2Proof.Machine

@[simp] theorem lane_tabulate (f : Fin 5 → Fin 5 → Lane) (x y : Fin 5) : (Lanes.tabulate f).lane x y = f x y := by
  have hx : (5 * x.val + y.val) / 5 = x.val := by omega
  have hy : (5 * x.val + y.val) % 5 = y.val := by omega
  simp only [Lanes.lane, Lanes.tabulate, Vector.getElem_ofFn]
  congr 1 <;> exact Fin.ext (by assumption)

/-- Lane arrays are equal when all their lanes are. -/
theorem Lanes.ext_lane {A B : Lanes} (h : ∀ x y, A.lane x y = B.lane x y) : A = B := by
  apply Vector.ext
  intro i hi
  have := h ⟨i / 5, by omega⟩ ⟨i % 5, by omega⟩
  simp only [Lanes.lane] at this
  have hi' : 5 * (i / 5) + i % 5 = i := Nat.div_add_mod i 5
  simpa only [hi'] using this

@[simp] theorem lane_replicate (v : Lane) (x y : Fin 5) : Lanes.lane (Vector.replicate 25 v) x y = v := by
  simp [Lanes.lane]

theorem zero_eq_replicate : Lanes.zero = Vector.replicate 25 0 := Lanes.ext_lane (by simp [Lanes.zero])

@[simp] theorem lane_zero (x y : Fin 5) : Lanes.zero.lane x y = 0 := by simp [Lanes.zero]

@[simp] theorem lane_xor (A L : Lanes) (x y : Fin 5) : (A.xor L).lane x y = A.lane x y ^^^ L.lane x y := by
  simp [Lanes.xor]

theorem inRange_zero (w : Nat) : Lanes.zero.inRange w := by intro x y; simp

theorem inRange_xor {w : Nat} {A B : Lanes} (hA : A.inRange w) (hB : B.inRange w) : (A.xor B).inRange w := by
  intro x y
  rw [lane_xor, BitVec.toNat_xor]
  exact Nat.xor_lt_two_pow (hA x y) (hB x y)

/-- The bits of the lane mask are the bits below `w` (00_scope.md R5). -/
theorem laneMask_getLsbD (w i : Nat) (hw : w ≤ 64) : (laneMask w).getLsbD i = decide (i < w) := by
  rw [laneMask, BitVec.getLsbD_ofNat, Nat.testBit_two_pow_sub_one]
  by_cases h : i < w
  · simp [h]; omega
  · simp [h]

theorem toNat_and_laneMask_lt (w : Nat) (v : Lane) : (v &&& laneMask w).toNat < 2 ^ w := by
  rw [BitVec.toNat_and, laneMask, BitVec.toNat_ofNat]
  refine lt_of_le_of_lt Nat.and_le_right (lt_of_le_of_lt (Nat.mod_le _ _) ?_)
  have := Nat.two_pow_pos w
  omega

/-- A value in [0, 2^w) has no bit from `w` up. -/
theorem getLsbD_of_toNat_lt {w : Nat} {v : Lane} (h : v.toNat < 2 ^ w) {i : Nat} (hi : w ≤ i) :
    v.getLsbD i = false := by
  rw [← BitVec.testBit_toNat]
  exact Nat.testBit_lt_two_pow (lt_of_lt_of_le h (Nat.pow_le_pow_right (by decide) hi))

end Sys2Proof.Machine
end

