-- ==== Sys2Proof/Laws/Blocks.lean ====
section
/-! SUPPORT. Byte sequences cut into blocks of one length, and the map between bytes and lanes block by block. -/

namespace Sys2Proof.Machine

theorem flatMap_range_length (f : Nat → List Byte) (m : Nat) (hf : ∀ k, (f k).length = m) (n : Nat) :
    ((List.range n).flatMap f).length = n * m := by
  induction n with
  | zero => simp
  | succ n ih => simp [List.range_succ, ih, hf, Nat.succ_mul]

/-- Block k of a concatenation of blocks. -/
theorem flatMap_range_block (f : Nat → List Byte) (m : Nat) (hf : ∀ k, (f k).length = m) {n k : Nat} (hk : k < n) :
    (((List.range n).flatMap f).drop (k * m)).take m = f k := by
  induction n with
  | zero => omega
  | succ n ih =>
    have hl := flatMap_range_length f m hf n
    simp only [List.range_succ, List.flatMap_append, List.flatMap_cons, List.flatMap_nil, List.append_nil]
    rcases Nat.lt_succ_iff_lt_or_eq.mp hk with h | rfl
    · have hle : k * m + m ≤ n * m := by rw [← Nat.succ_mul]; exact Nat.mul_le_mul_right m h
      rw [List.drop_append_of_le_length (by omega), List.take_append_of_le_length (by rw [List.length_drop]; omega), ih h]
    · rw [List.drop_left' hl, List.take_of_length_le (le_of_eq (hf k))]

/-- A sequence is the concatenation of its blocks. -/
theorem flatMap_range_blocks (Z : List Byte) (m n : Nat) (hZ : Z.length = n * m) :
    (List.range n).flatMap (fun k => (Z.drop (k * m)).take m) = Z := by
  have key : ∀ j ≤ n, (List.range j).flatMap (fun k => (Z.drop (k * m)).take m) = Z.take (j * m) := by
    intro j hj
    induction j with
    | zero => simp
    | succ j ih =>
      rw [List.range_succ, List.flatMap_append, ih (by omega)]
      simp [Nat.succ_mul, List.take_add]
  rw [key n le_rfl, ← hZ, List.take_length]

theorem xor_digit (a b x y : Nat) (ha : a < 256) (hb : b < 256) :
    (a + 256 * x) ^^^ (b + 256 * y) = (a ^^^ b) + 256 * (x ^^^ y) := by
  have hab : a ^^^ b < 2 ^ 8 := Nat.xor_lt_two_pow (n := 8) ha hb
  apply Nat.eq_of_testBit_eq
  intro i
  rw [Nat.testBit_xor, Nat.add_comm a, Nat.add_comm b, Nat.add_comm (a ^^^ b), show (256 : Nat) = 2 ^ 8 from rfl,
    Nat.testBit_two_pow_mul_add _ ha, Nat.testBit_two_pow_mul_add _ hb, Nat.testBit_two_pow_mul_add _ hab]
  split <;> simp

/-- ⊕ byte by byte is ⊕ of the little-endian numbers (44_sponge_absorber.md R190). -/
theorem leNat_zipWith_xor (M N : List Byte) (h : M.length = N.length) :
    leNat (List.zipWith (· ^^^ ·) M N) = leNat M ^^^ leNat N := by
  induction M generalizing N with
  | nil => cases N <;> simp_all [leNat]
  | cons a M ih =>
    cases N with
    | nil => simp at h
    | cons b N =>
      simp only [List.zipWith_cons_cons, leNat]
      rw [ih N (by simpa using h), xor_digit _ _ _ _ a.isLt b.isLt, BitVec.toNat_xor]

theorem zipWith_xor_zeros (M : List Byte) : List.zipWith (· ^^^ ·) M (zeros M.length) = M := by
  induction M with
  | nil => rfl
  | cons b M ih => simpa [zeros, List.replicate_succ] using ih

/-- The number of block lane k = x + 5y of a byte sequence (20_memory.md R53). -/
theorem lane_lanesOf (w : Nat) (Z : List Byte) (x y : Fin 5) :
    (lanesOf w Z).lane x y =
      BitVec.ofNat 64 (leNat ((Z.drop ((x.val + 5 * y.val) * (w / 8))).take (w / 8))) := by
  simp [lanesOf, slice_block]

theorem bytesOf_length (w : Nat) (A : Lanes) : (bytesOf w A).length = 25 * (w / 8) :=
  flatMap_range_length _ _ (fun _ => leBytes_length _ _) 25

/-- The bytes of block lane k = x + 5y of the serialized state (20_memory.md R54). -/
theorem bytesOf_block (w : Nat) (A : Lanes) (x y : Fin 5) :
    ((bytesOf w A).drop ((x.val + 5 * y.val) * (w / 8))).take (w / 8) = leBytes (w / 8) (A.lane x y).toNat := by
  have hx : Fin.ofNat 5 (x.val + 5 * y.val) = x := Fin.ext (by simp [Fin.ofNat])
  have hy : Fin.ofNat 5 ((x.val + 5 * y.val) / 5) = y := Fin.ext (by simp [Fin.ofNat]; omega)
  rw [bytesOf, flatMap_range_block _ (w / 8) (fun _ => leBytes_length _ _) (by omega), hx, hy]

/-- ⊕ of a lane array with the lanes of a byte sequence, as bytes. -/
theorem lanesOf_zipWith_xor (w : Nat) (M N : List Byte) (h : M.length = N.length) :
    lanesOf w (List.zipWith (· ^^^ ·) M N) = (lanesOf w M).xor (lanesOf w N) := by
  apply Lanes.ext_lane
  intro x y
  rw [lane_xor, lane_lanesOf, lane_lanesOf, lane_lanesOf, List.drop_zipWith, List.take_zipWith,
    leNat_zipWith_xor _ _ (by simp [h])]
  apply BitVec.eq_of_toNat_eq
  simp

end Sys2Proof.Machine
end

