-- ==== Sys2Proof/Laws/State.lean ====
section
/-! SUPPORT. One lemma per field for each shared update of the state, so that no proof unfolds a record update. -/

namespace Sys2Proof.Machine

@[simp] theorem updateStatus_phase (fr : Bool) (st : Status) (s : State) : (updateStatus fr st s).phase = s.phase := rfl
@[simp] theorem updateStatus_cfg (fr : Bool) (st : Status) (s : State) : (updateStatus fr st s).cfg = s.cfg := rfl
@[simp] theorem updateStatus_lanes (fr : Bool) (st : Status) (s : State) : (updateStatus fr st s).lanes = s.lanes := rfl
@[simp] theorem updateStatus_buf (fr : Bool) (st : Status) (s : State) : (updateStatus fr st s).buf = s.buf := rfl
@[simp] theorem updateStatus_lastStatus (fr : Bool) (st : Status) (s : State) : (updateStatus fr st s).lastStatus = if fr && decide (st = .ok) then s.lastStatus else st := rfl
@[simp] theorem updateStatus_errSeen (fr : Bool) (st : Status) (s : State) : (updateStatus fr st s).errSeen = (s.errSeen || decide (st ≠ .ok)) := rfl
@[simp] theorem updateStatus_inbox (fr : Bool) (st : Status) (s : State) : (updateStatus fr st s).inbox = s.inbox := rfl
@[simp] theorem updateStatus_outbox (fr : Bool) (st : Status) (s : State) : (updateStatus fr st s).outbox = s.outbox := rfl

@[simp] theorem respond_phase (fr : Bool) (st : Status) (data : List Byte) (s : State) : (respond fr st data s).phase = s.phase := rfl
@[simp] theorem respond_cfg (fr : Bool) (st : Status) (data : List Byte) (s : State) : (respond fr st data s).cfg = s.cfg := rfl
@[simp] theorem respond_lanes (fr : Bool) (st : Status) (data : List Byte) (s : State) : (respond fr st data s).lanes = s.lanes := rfl
@[simp] theorem respond_buf (fr : Bool) (st : Status) (data : List Byte) (s : State) : (respond fr st data s).buf = s.buf := rfl
@[simp] theorem respond_lastStatus (fr : Bool) (st : Status) (data : List Byte) (s : State) : (respond fr st data s).lastStatus = if fr && decide (st = .ok) then s.lastStatus else st := rfl
@[simp] theorem respond_errSeen (fr : Bool) (st : Status) (data : List Byte) (s : State) : (respond fr st data s).errSeen = (s.errSeen || decide (st ≠ .ok)) := rfl
@[simp] theorem respond_inbox (fr : Bool) (st : Status) (data : List Byte) (s : State) : (respond fr st data s).inbox = s.inbox := rfl
@[simp] theorem respond_outbox (fr : Bool) (st : Status) (data : List Byte) (s : State) : (respond fr st data s).outbox = s.outbox ++ responseBytes st data := rfl

@[simp] theorem clearComputation_phase (s : State) : (clearComputation s).phase = .unconfigured := rfl
@[simp] theorem clearComputation_cfg (s : State) : (clearComputation s).cfg = none := rfl
@[simp] theorem clearComputation_lanes (s : State) : (clearComputation s).lanes = Lanes.zero := rfl
@[simp] theorem clearComputation_buf (s : State) : (clearComputation s).buf = [] := rfl
@[simp] theorem clearComputation_lastStatus (s : State) : (clearComputation s).lastStatus = s.lastStatus := rfl
@[simp] theorem clearComputation_errSeen (s : State) : (clearComputation s).errSeen = s.errSeen := rfl
@[simp] theorem clearComputation_inbox (s : State) : (clearComputation s).inbox = s.inbox := rfl
@[simp] theorem clearComputation_outbox (s : State) : (clearComputation s).outbox = s.outbox := rfl

@[simp] theorem resetEvent_phase (s : State) : (resetEvent s).phase = .unconfigured := rfl
@[simp] theorem resetEvent_cfg (s : State) : (resetEvent s).cfg = none := rfl
@[simp] theorem resetEvent_lanes (s : State) : (resetEvent s).lanes = Vector.replicate 25 0 := rfl
@[simp] theorem resetEvent_buf (s : State) : (resetEvent s).buf = [] := rfl
@[simp] theorem resetEvent_lastStatus (s : State) : (resetEvent s).lastStatus = .ok := rfl
@[simp] theorem resetEvent_errSeen (s : State) : (resetEvent s).errSeen = false := rfl
@[simp] theorem resetEvent_inbox (s : State) : (resetEvent s).inbox = s.inbox := rfl
@[simp] theorem resetEvent_outbox (s : State) : (resetEvent s).outbox = s.outbox := rfl

@[simp] theorem hostSend_phase (bs : List Byte) (s : State) : (hostSend bs s).phase = s.phase := rfl
@[simp] theorem hostSend_cfg (bs : List Byte) (s : State) : (hostSend bs s).cfg = s.cfg := rfl
@[simp] theorem hostSend_lanes (bs : List Byte) (s : State) : (hostSend bs s).lanes = s.lanes := rfl
@[simp] theorem hostSend_buf (bs : List Byte) (s : State) : (hostSend bs s).buf = s.buf := rfl
@[simp] theorem hostSend_lastStatus (bs : List Byte) (s : State) : (hostSend bs s).lastStatus = s.lastStatus := rfl
@[simp] theorem hostSend_errSeen (bs : List Byte) (s : State) : (hostSend bs s).errSeen = s.errSeen := rfl
@[simp] theorem hostSend_inbox (bs : List Byte) (s : State) : (hostSend bs s).inbox = s.inbox ++ bs.map .byte := rfl
@[simp] theorem hostSend_outbox (bs : List Byte) (s : State) : (hostSend bs s).outbox = s.outbox := rfl

@[simp] theorem State.withFetchWord_phase (s : State) (nbits w : Nat) : (s.withFetchWord nbits w).phase = s.phase := rfl
@[simp] theorem State.withFetchWord_cfg (s : State) (nbits w : Nat) : (s.withFetchWord nbits w).cfg = s.cfg := rfl
@[simp] theorem State.withFetchWord_lanes (s : State) (nbits w : Nat) : (s.withFetchWord nbits w).lanes = s.lanes := rfl
@[simp] theorem State.withFetchWord_buf (s : State) (nbits w : Nat) : (s.withFetchWord nbits w).buf = s.buf := rfl
@[simp] theorem State.withFetchWord_lastStatus (s : State) (nbits w : Nat) : (s.withFetchWord nbits w).lastStatus = s.lastStatus := rfl
@[simp] theorem State.withFetchWord_errSeen (s : State) (nbits w : Nat) : (s.withFetchWord nbits w).errSeen = s.errSeen := rfl
@[simp] theorem State.withFetchWord_inbox (s : State) (nbits w : Nat) : (s.withFetchWord nbits w).inbox = (tableFrame nbits w).map .byte := rfl
@[simp] theorem State.withFetchWord_outbox (s : State) (nbits w : Nat) : (s.withFetchWord nbits w).outbox = s.outbox := rfl

/-- A successful command other than READ_REG leaves status OK and the sticky bit as it was (60_exceptions.md R266). -/
theorem respond_ok (data : List Byte) (s : State) :
    respond false .ok data s = { s with lastStatus := .ok, outbox := s.outbox ++ responseBytes .ok data } := by
  simp [respond, updateStatus]

/-- A successful READ_REG changes no status field (60_exceptions.md R266). -/
theorem respond_readReg_ok (data : List Byte) (s : State) :
    respond true .ok data s = { s with outbox := s.outbox ++ responseBytes .ok data } := by
  simp [respond, updateStatus]

/-- An error that leaves the sponge alone (60_exceptions.md R263, R264). -/
theorem raise_keeps (st : Status) (s : State) (h : st = .illegalCommand ∨ st = .sequenceError) :
    raise st s = { s with lastStatus := st, errSeen := true, outbox := s.outbox ++ responseBytes st [] } := by
  rcases h with rfl | rfl <;> simp [raise, errorEffect, respond, updateStatus]

/-- An error that ends the computation (60_exceptions.md R265). -/
theorem raise_clears (st : Status) (s : State) (h : st = .configError ∨ st = .unsupportedWordSize) :
    raise st s = { s with
      phase := .unconfigured, cfg := none, lanes := Lanes.zero, buf := []
      lastStatus := st, errSeen := true, outbox := s.outbox ++ responseBytes st [] } := by
  rcases h with rfl | rfl <;> simp [raise, errorEffect, respond, updateStatus, clearComputation]

end Sys2Proof.Machine
end

