-- ==== Sys2Proof/Laws/Commands.lean ====
section
/-! SUPPORT. What the phase check and each command can do, so that no proof unfolds the dispatch. -/

namespace Sys2Proof.Machine

theorem inPhase_of_ne {p : Phase} {s : State} (h : s.phase ≠ p)
    (effect : SpongeConfig → Host.Outcome State Fault Refusal) : inPhase p s effect = .next (raise .sequenceError s) := by
  simp [inPhase, h]

theorem inPhase_of_eq {p : Phase} {s : State} {C : SpongeConfig} (h : s.phase = p) (hC : s.cfg = some C)
    (effect : SpongeConfig → Host.Outcome State Fault Refusal) : inPhase p s effect = effect C := by
  simp [inPhase, h, hC]

/-- The outcomes of a command that is legal in one phase: out of phase, or its effect under the configuration. -/
theorem inPhase_next {p : Phase} {s t : State} {effect : SpongeConfig → Host.Outcome State Fault Refusal}
    (h : inPhase p s effect = .next t) :
    (s.phase ≠ p ∧ t = raise .sequenceError s) ∨ (s.phase = p ∧ ∃ C, s.cfg = some C ∧ effect C = .next t) := by
  unfold inPhase at h
  split at h
  · split at h
    · exact .inr ⟨‹_›, _, ‹_›, h⟩
    · cases h
  · exact .inl ⟨‹_›, by simpa using h.symm⟩

theorem execInit_ok {r c n : Word} {s : State} (h : validate r.toNat c.toNat n.toNat = .ok) :
    exec (.init r c n) s = .next { s with
      phase := .absorbing, cfg := some (deriveConfig r.toNat c.toNat n.toNat), lanes := Lanes.zero, buf := []
      lastStatus := .ok, outbox := s.outbox ++ responseBytes .ok [] } := by
  simp [exec, execInit, zext32, h, respond_ok]

theorem validate_cases (r c n : Nat) :
    validate r c n = .ok ∨ validate r c n = .configError ∨ validate r c n = .unsupportedWordSize := by
  unfold validate
  split_ifs <;> simp

theorem execInit_error {r c n : Word} {s : State} (h : validate r.toNat c.toNat n.toNat ≠ .ok) :
    exec (.init r c n) s = .next { s with
      phase := .unconfigured, cfg := none, lanes := Lanes.zero, buf := []
      lastStatus := validate r.toNat c.toNat n.toNat, errSeen := true
      outbox := s.outbox ++ responseBytes (validate r.toNat c.toNat n.toNat) [] } := by
  have hc := (validate_cases r.toNat c.toNat n.toNat).resolve_left h
  simp [exec, execInit, zext32, h, raise_clears _ s hc]

theorem execReadReg_ok {k : Word} {s : State} (h : k.toNat ≤ 6) :
    exec (.readReg k) s =
      .next { s with outbox := s.outbox ++ responseBytes .ok (wordBytes (readRegister k.toNat s)) } := by
  simp [exec, execReadReg, zext32, Nat.not_lt.mpr h, respond_readReg_ok]

theorem execReadReg_reserved {k : Word} {s : State} (h : 6 < k.toNat) :
    exec (.readReg k) s = .next { s with
      lastStatus := .illegalCommand, errSeen := true, outbox := s.outbox ++ responseBytes .illegalCommand [] } := by
  simp [exec, execReadReg, zext32, h, raise_keeps]

/-- What a command can do, one line per command and error (43_sponge_control.md to 45_sponge_squeezer.md,
60_exceptions.md R263 to R265). -/
theorem exec_cases {i : Instr} {s t : State} (h : exec i s = .next t) :
    (∃ r c n, i = .init r c n ∧ validate r.toNat c.toNat n.toNat = .ok ∧ t = { s with
      phase := .absorbing, cfg := some (deriveConfig r.toNat c.toNat n.toNat), lanes := Lanes.zero, buf := []
      lastStatus := .ok, outbox := s.outbox ++ responseBytes .ok [] }) ∨
    (∃ r c n, i = .init r c n ∧ ∃ st, (st = .configError ∨ st = .unsupportedWordSize) ∧ t = { s with
      phase := .unconfigured, cfg := none, lanes := Lanes.zero, buf := []
      lastStatus := st, errSeen := true, outbox := s.outbox ++ responseBytes st [] }) ∨
    (∃ k, i = .readReg k ∧ k.toNat ≤ 6 ∧
      t = { s with outbox := s.outbox ++ responseBytes .ok (wordBytes (readRegister k.toNat s)) }) ∨
    (∃ st, ((st = .illegalCommand ∧ ∃ k, i = .readReg k) ∨
        (st = .sequenceError ∧ (∀ r c n, i ≠ .init r c n) ∧ ∀ k, i ≠ .readReg k)) ∧
      t = { s with lastStatus := st, errSeen := true, outbox := s.outbox ++ responseBytes st [] }) ∨
    (∃ C, s.cfg = some C ∧ s.phase = .absorbing ∧
      ((∃ chunk, i = .update chunk ∧ t = updateEffect (superBlock C) C chunk s) ∨
       ∃ last, i = .digest last ∧
        let tail := squeezeTail C (absorbPadded C s.lanes (s.buf ++ last))
        t = { s with phase := .squeezing, lanes := tail.1, buf := [], lastStatus := .ok
                     outbox := s.outbox ++ responseBytes .ok tail.2 })) ∨
    (∃ C, s.cfg = some C ∧ s.phase = .squeezing ∧
      ((i = .squeeze ∧
        let tail := squeezeTail C (keccakF C.w s.lanes)
        t = { s with lanes := tail.1, lastStatus := .ok, outbox := s.outbox ++ responseBytes .ok tail.2 }) ∨
       ∃ times m, (i = .simpleSqueeze times ∨ i = .fastSqueeze times) ∧
        t = { s with lanes := keccakTimes C.w m s.lanes, lastStatus := .ok
                     outbox := s.outbox ++ responseBytes .ok [] })) := by
  cases i with
  | init r c n =>
    by_cases hv : validate r.toNat c.toNat n.toNat = .ok
    · rw [execInit_ok hv] at h
      exact .inl ⟨r, c, n, rfl, hv, by simpa using h.symm⟩
    · rw [execInit_error hv] at h
      exact .inr (.inl ⟨r, c, n, rfl, _, (validate_cases _ _ _).resolve_left hv, by simpa using h.symm⟩)
  | readReg k =>
    by_cases hk : k.toNat ≤ 6
    · rw [execReadReg_ok hk] at h
      exact .inr (.inr (.inl ⟨k, rfl, hk, by simpa using h.symm⟩))
    · rw [execReadReg_reserved (Nat.lt_of_not_le hk)] at h
      exact .inr (.inr (.inr (.inl ⟨.illegalCommand, .inl ⟨rfl, k, rfl⟩, by simpa using h.symm⟩)))
  | update chunk =>
    rcases inPhase_next h with ⟨_, rfl⟩ | ⟨hp, C, hC, he⟩
    · exact .inr (.inr (.inr (.inl ⟨.sequenceError, .inr ⟨rfl, by simp⟩, raise_keeps _ _ (.inr rfl)⟩)))
    · exact .inr (.inr (.inr (.inr (.inl ⟨C, hC, hp, .inl ⟨chunk, rfl, by simpa using he.symm⟩⟩))))
  | digest last =>
    rcases inPhase_next h with ⟨_, rfl⟩ | ⟨hp, C, hC, he⟩
    · exact .inr (.inr (.inr (.inl ⟨.sequenceError, .inr ⟨rfl, by simp⟩, raise_keeps _ _ (.inr rfl)⟩)))
    · exact .inr (.inr (.inr (.inr (.inl ⟨C, hC, hp, .inr ⟨last, rfl, by simpa [respond_ok] using he.symm⟩⟩))))
  | squeeze =>
    rcases inPhase_next h with ⟨_, rfl⟩ | ⟨hp, C, hC, he⟩
    · exact .inr (.inr (.inr (.inl ⟨.sequenceError, .inr ⟨rfl, by simp⟩, raise_keeps _ _ (.inr rfl)⟩)))
    · exact .inr (.inr (.inr (.inr (.inr ⟨C, hC, hp, .inl ⟨rfl, by simpa [respond_ok] using he.symm⟩⟩))))
  | simpleSqueeze times =>
    rcases inPhase_next h with ⟨_, rfl⟩ | ⟨hp, C, hC, he⟩
    · exact .inr (.inr (.inr (.inl ⟨.sequenceError, .inr ⟨rfl, by simp⟩, raise_keeps _ _ (.inr rfl)⟩)))
    · exact .inr (.inr (.inr (.inr (.inr ⟨C, hC, hp, .inr ⟨times, _, .inl rfl, by
        simpa [respond_ok] using he.symm⟩⟩))))
  | fastSqueeze times =>
    rcases inPhase_next h with ⟨_, rfl⟩ | ⟨hp, C, hC, he⟩
    · exact .inr (.inr (.inr (.inl ⟨.sequenceError, .inr ⟨rfl, by simp⟩, raise_keeps _ _ (.inr rfl)⟩)))
    · exact .inr (.inr (.inr (.inr (.inr ⟨C, hC, hp, .inr ⟨times, _, .inr rfl, by
        simpa [respond_ok] using he.symm⟩⟩))))

/-- DIGEST in ABSORBING (45_sponge_squeezer.md R212). -/
theorem execDigest_absorbing {s : State} {C : SpongeConfig} (hp : s.phase = .absorbing) (hC : s.cfg = some C)
    (last : List Byte) :
    let tail := squeezeTail C (absorbPadded C s.lanes (s.buf ++ last))
    exec (.digest last) s = .next { s with
      phase := .squeezing, lanes := tail.1, buf := [], lastStatus := .ok
      outbox := s.outbox ++ responseBytes .ok tail.2 } := by
  simp only [exec, execDigest, inPhase_of_eq hp hC, respond_ok]

/-- A sequence of commands runs its first part, then the rest (20_memory.md R58). -/
theorem runCommands_append {a : List Instr} {s t : State} (h : runCommands a s = .next t) (b : List Instr) :
    runCommands (a ++ b) s = runCommands b t := by
  induction a generalizing s with
  | nil => cases h; rfl
  | cons i a ih =>
    simp only [List.cons_append, runCommands] at h ⊢
    cases hi : exec i s with
    | next u => rw [hi] at h; exact ih h
    | fault e => rw [hi] at h; cases h
    | refused e => rw [hi] at h; cases h

end Sys2Proof.Machine
end

