-- ==== Sys2Proof/Laws/Config.lean ====
section
/-! SUPPORT. What validation admits, as arithmetic. -/

namespace Sys2Proof.Machine

/-- The four checks of 43_sponge_control.md R172 together. -/
theorem validate_eq_ok {r c n : Nat} : validate r c n = .ok ↔
    (r ≠ 0 ∧ c ≠ 0 ∧ n ≠ 0 ∧ r % 8 = 0 ∧ c % 8 = 0) ∧ (r + c) % 25 = 0 ∧ (r + c) / 25 ≤ 64 ∧
      2 ^ Nat.log2 ((r + c) / 25) = (r + c) / 25 := by
  unfold validate Config.maxWordSize
  split_ifs <;> simp <;> omega

/-- A power of two that is a multiple of 8 and at most 64. -/
theorem wordSize_cases {w : Nat} (h8 : w % 8 = 0) (h0 : 0 < w) (h64 : w ≤ 64) (hp : 2 ^ Nat.log2 w = w) :
    w = 8 ∨ w = 16 ∨ w = 32 ∨ w = 64 := by
  have : w = 8 ∨ w = 16 ∨ w = 24 ∨ w = 32 ∨ w = 40 ∨ w = 48 ∨ w = 56 ∨ w = 64 := by omega
  rcases this with rfl | rfl | rfl | rfl | rfl | rfl | rfl | rfl <;> revert hp <;> decide

/-- The arithmetic of a valid configuration that the commands rely on (00_scope.md R5, R6). -/
theorem SpongeConfig.Valid.arith {C : SpongeConfig} (h : C.Valid) :
    (C.w = 8 ∨ C.w = 16 ∨ C.w = 32 ∨ C.w = 64) ∧ C.b = 25 * C.w ∧ C.r = 8 * C.rr ∧ 0 < C.rr ∧ 0 < C.n ∧
      C.rr < 25 * (C.w / 8) ∧ C.b / 8 = 25 * (C.w / 8) := by
  obtain ⟨hv, hC, _⟩ := h
  obtain ⟨⟨h1, h2, h3, h4, h5⟩, h6, h7, h8⟩ := validate_eq_ok.mp hv
  have hb : C.b = C.r + C.c := by rw [hC]; rfl
  have hw : C.w = (C.r + C.c) / 25 := by rw [hC]; rfl
  have hrr : C.rr = C.r / 8 := by rw [hC]; rfl
  have hcases := wordSize_cases (w := C.w) (by omega) (by omega) (by omega) (by rw [hw]; exact h8)
  refine ⟨hcases, ?_⟩
  omega

/-- INIT's arguments, once validated, give a valid configuration. -/
theorem deriveConfig_valid {r c n : Nat} (h : validate r c n = .ok) (hn : n ≤ Config.nMax) :
    (deriveConfig r c n).Valid := ⟨h, rfl, hn⟩

end Sys2Proof.Machine
end

