-- ==== Sys2Proof/Laws/Fetch.lean ====
section
/-! SUPPORT. What the decoder and the fetch can do. -/

namespace Sys2Proof

theorem withArg_wordBytes (v : Word) (rest : List Byte) (next : Word → List Byte → Decoded) :
    withArg (wordBytes v ++ rest) next = next v rest := by simp [withArg]

/-- Reading an argument waits for its bytes, or finds them at the front. -/
theorem withArg_cases {bs : List Byte} {next : Word → List Byte → Decoded} {d : Decoded} (h : withArg bs next = d) :
    (d = .incomplete ∧ bs.length < 4) ∨ ∃ v rest, bs = wordBytes v ++ rest ∧ next v rest = d := by
  cases hw : takeWord bs with
  | none => exact .inl ⟨by simpa [withArg, hw] using h.symm, takeWord_eq_none.mp hw⟩
  | some p => exact .inr ⟨p.1, p.2, eq_of_takeWord hw, by simpa [withArg, hw] using h⟩

/-- Reading a payload waits for its bytes, or finds LEN and the payload at the front. -/
theorem withPayload_cases {bs : List Byte} {command : List Byte → Instr} {d : Decoded}
    (h : withPayload bs command = d) :
    d = .incomplete ∨ ∃ p rest, p.length < 2 ^ 32 ∧ bs = leBytes 4 p.length ++ (p ++ rest) ∧
      d = .frame (command p) rest := by
  rcases withArg_cases h with ⟨rfl, _⟩ | ⟨v, rest, rfl, hn⟩
  · exact .inl rfl
  · split at hn
    · exact .inl hn.symm
    · have hl : (rest.take v.toNat).length = v.toNat := by simp; omega
      exact .inr ⟨_, _, by rw [hl]; exact v.isLt, by rw [hl, List.take_append_drop]; rfl, hn.symm⟩

@[simp] theorem decode_wordBytes (h : Word) (rest : List Byte) :
    decode (wordBytes h ++ rest) = decodeCommand h rest := withArg_wordBytes _ _ _

/-- The decoder takes the branch of a command's own header (30_encoding.md R72). -/
theorem decodeCommand_headerWord (i : Instr) (rest : List Byte) :
    decodeCommand (headerWord i) rest = match i with
      | .init _ _ _ => withArg rest fun r rest => withArg rest fun c rest => withArg rest fun n rest =>
          .frame (.init r c n) rest
      | .update _ => withPayload rest .update
      | .digest _ => withPayload rest .digest
      | .squeeze => .frame .squeeze rest
      | .simpleSqueeze _ => withArg rest fun t rest => .frame (.simpleSqueeze t) rest
      | .fastSqueeze _ => withArg rest fun t rest => .frame (.fastSqueeze t) rest
      | .readReg _ => withArg rest fun k rest => .frame (.readReg k) rest := by
  cases i <;> simp [headerWord, decodeCommand, headerRsvd, headerOpc]

/-- A header without reserved bits is its opcode. -/
theorem eq_headerOpc {h : Word} (hr : headerRsvd h = 0) : h = BitVec.ofNat 32 (headerOpc h).toNat := by
  have hz : (headerRsvd h).toNat = 0 := by rw [hr]; rfl
  simp only [headerRsvd, headerOpc, BitVec.extractLsb'_toNat, Nat.shiftRight_eq_div_pow] at hz ⊢
  apply BitVec.eq_of_toNat_eq
  have := h.isLt
  simp only [BitVec.toNat_ofNat]
  omega

theorem withPayload_append (bs rest : List Byte) (command : List Byte → Instr) (h : bs.length < 2 ^ 32) :
    withPayload (leBytes 4 bs.length ++ (bs ++ rest)) command = .frame (command bs) rest := by
  have h' : bs.length % 4294967296 = bs.length := Nat.mod_eq_of_lt h
  simp [withPayload, withArg, takeWord_leBytes _ _ h, h']

namespace Machine

@[simp] theorem splitBytes_bytes (bs : List Byte) (evs : List InEvent) :
    splitBytes (bs.map .byte ++ evs) = (bs ++ (splitBytes evs).1, (splitBytes evs).2) := by
  induction bs with
  | nil => rfl
  | cons b bs ih => simp [splitBytes, ih]

/-- Splitting off the bytes loses nothing. -/
theorem splitBytes_join (evs : List InEvent) : (splitBytes evs).1.map .byte ++ (splitBytes evs).2 = evs := by
  induction evs with
  | nil => rfl
  | cons e evs ih => cases e <;> simp [splitBytes, ih]

/-- What follows the bytes is empty or begins with a reset. -/
theorem splitBytes_snd (evs : List InEvent) :
    (splitBytes evs).2 = [] ∨ ∃ e later, (splitBytes evs).2 = e :: later ∧ ∀ b, e ≠ .byte b := by
  induction evs with
  | nil => exact .inl rfl
  | cons e evs ih =>
    cases e with
    | byte b => exact ih
    | reset => exact .inr ⟨_, _, rfl, by simp⟩
    | resetMidCommand k => exact .inr ⟨_, _, rfl, by simp⟩

/-- A command is abandoned only by a reset that names the bytes unread behind it. -/
theorem abandoned_eq_some {unread : Nat} {evs after : List InEvent} :
    abandoned unread evs = some after ↔ evs = .resetMidCommand unread :: after := by
  match evs with
  | [] | .byte _ :: _ | .reset :: _ => simp [abandoned]
  | .resetMidCommand k :: _ => by_cases h : k = unread <;> simp [abandoned, h]

/-- A command is not abandoned when no reset during it is at the input. -/
theorem abandoned_eq_none {later : List InEvent}
    (h : ∀ (unread : List Byte) after, later ≠ unread.map .byte ++ .resetMidCommand unread.length :: after) :
    abandoned (splitBytes later).1.length (splitBytes later).2 = none := by
  match ha : abandoned (splitBytes later).1.length (splitBytes later).2 with
  | none => rfl
  | some after =>
    exact absurd (by rw [← abandoned_eq_some.mp ha, splitBytes_join]) (h (splitBytes later).1 after)

/-- What a step can do: run a command or reject an illegal frame on the input that is left, reset, or wait. -/
theorem step_cases {s t : State} (h : step s = .next t) :
    (∃ i later, fetch s.inbox = .run i later ∧ exec i { s with inbox := later } = .next t) ∨
    (∃ later, fetch s.inbox = .illegalFrame later ∧ t = raise .illegalCommand { s with inbox := later }) ∨
    (∃ later, fetch s.inbox = .reset later ∧ t = resetEvent { s with inbox := later }) ∨
    (fetch s.inbox = .wait ∧ t = s) := by
  unfold step at h
  split at h
  · exact .inl ⟨_, _, ‹_›, h⟩
  · exact .inr (.inl ⟨_, ‹_›, by simpa using h.symm⟩)
  · exact .inr (.inr (.inl ⟨_, ‹_›, by simpa using h.symm⟩))
  · exact .inr (.inr (.inr ⟨‹_›, by simpa using h.symm⟩))

/-- A reset is fetched only if one is at the input. -/
theorem reset_mem_of_fetch {inbox later : List InEvent} (h : fetch inbox = .reset later) :
    ∃ e ∈ inbox, ∀ b, e ≠ .byte b := by
  rcases splitBytes_snd inbox with h2 | ⟨e, l, h2, he⟩
  · simp only [fetch, h2, abandoned] at h
    split at h <;> simp at h
  · exact ⟨e, by rw [← splitBytes_join inbox, h2]; simp, he⟩

end Machine

end Sys2Proof
end

