-- ==== Sys2Proof/Laws/PerInstr.lean ====
section
/-! SUPPORT. What holds of every command as syntax, one lemma per constructor of Instr. -/

namespace Sys2Proof.Laws

/-- The header of a command is a legal one: RSVD is 0 and OPC announces a format (30_encoding.md R71, R72, R76); and
the frame has the length the header and, for FMT_D, the LEN word announce (R73). -/
def HeaderAnnouncesFrame.Statement (i : Instr) : Prop :=
  headerRsvd (headerWord i) = 0 ∧ headerFormat (headerWord i) ≠ .fmtIll ∧
    (i.wellFormed = true → ∀ len : Word, (frameBody i).take 4 = wordBytes len →
      (encode i).length = frameLength (headerWord i) len)

/-- The frame length of a format (30_encoding.md R73). -/
def formatLength (f : Format) (len : Word) : Nat :=
  match f with
  | .fmtH => 4
  | .fmtA1 => 8
  | .fmtA3 => 16
  | .fmtD => 8 + len.toNat
  | .fmtIll => 4

theorem HeaderAnnouncesFrame.of_format {i : Instr} {f : Format} (hr : headerRsvd (headerWord i) = 0)
    (hf : headerFormat (headerWord i) = f) (hill : f ≠ .fmtIll)
    (hlen : i.wellFormed = true → ∀ len : Word, (frameBody i).take 4 = wordBytes len →
      (encode i).length = formatLength f len) : HeaderAnnouncesFrame.Statement i := by
  refine ⟨hr, hf ▸ hill, fun hw len h => ?_⟩
  rw [hlen hw len h, frameLength, hf]
  rfl

theorem HeaderAnnouncesFrame.init (r c n : Word) : HeaderAnnouncesFrame.Statement (.init r c n) :=
  HeaderAnnouncesFrame.of_format (f := .fmtA3) (by decide : headerRsvd 1 = 0) (by decide : headerFormat 1 = .fmtA3)
    (by decide) fun _ _ _ => rfl

/-- The length of a frame with a payload. -/
theorem HeaderAnnouncesFrame.payload {bs : List Byte} {len : Word} (h : bs.length ≤ Config.lenMax)
    (hlen : (leBytes 4 bs.length ++ bs).take 4 = wordBytes len) : bs.length = len.toNat := by
  have h32 : bs.length < 2 ^ 32 := Nat.lt_of_le_of_lt h (by decide)
  have e : leBytes 4 bs.length = leBytes 4 len.toNat := hlen
  simp only [leBytes, List.cons.injEq, and_true] at e
  obtain ⟨e0, e1, e2, e3⟩ := e
  have h0 := congrArg BitVec.toNat e0
  have h1 := congrArg BitVec.toNat e1
  have h2 := congrArg BitVec.toNat e2
  have h3 := congrArg BitVec.toNat e3
  have := len.isLt
  simp only [BitVec.toNat_ofNat] at h0 h1 h2 h3
  omega

theorem HeaderAnnouncesFrame.update (chunk : List Byte) : HeaderAnnouncesFrame.Statement (.update chunk) := by
  refine HeaderAnnouncesFrame.of_format (f := .fmtD) (by decide : headerRsvd 2 = 0)
    (by decide : headerFormat 2 = .fmtD) (by decide) fun hw len hlen => ?_
  have := HeaderAnnouncesFrame.payload (of_decide_eq_true hw) hlen
  simp only [formatLength, encode, frameBody, List.length_append, wordBytes, leBytes, List.length_cons, List.length_nil]
  omega

theorem HeaderAnnouncesFrame.digest (lastChunk : List Byte) : HeaderAnnouncesFrame.Statement (.digest lastChunk) := by
  refine HeaderAnnouncesFrame.of_format (f := .fmtD) (by decide : headerRsvd 3 = 0)
    (by decide : headerFormat 3 = .fmtD) (by decide) fun hw len hlen => ?_
  have := HeaderAnnouncesFrame.payload (of_decide_eq_true hw) hlen
  simp only [formatLength, encode, frameBody, List.length_append, wordBytes, leBytes, List.length_cons, List.length_nil]
  omega

theorem HeaderAnnouncesFrame.squeeze : HeaderAnnouncesFrame.Statement .squeeze :=
  HeaderAnnouncesFrame.of_format (f := .fmtH) (by decide : headerRsvd 4 = 0) (by decide : headerFormat 4 = .fmtH)
    (by decide) fun _ _ _ => rfl

theorem HeaderAnnouncesFrame.simpleSqueeze (t : Word) : HeaderAnnouncesFrame.Statement (.simpleSqueeze t) :=
  HeaderAnnouncesFrame.of_format (f := .fmtA1) (by decide : headerRsvd 5 = 0) (by decide : headerFormat 5 = .fmtA1)
    (by decide) fun _ _ _ => rfl

theorem HeaderAnnouncesFrame.fastSqueeze (t : Word) : HeaderAnnouncesFrame.Statement (.fastSqueeze t) :=
  HeaderAnnouncesFrame.of_format (f := .fmtA1) (by decide : headerRsvd 6 = 0) (by decide : headerFormat 6 = .fmtA1)
    (by decide) fun _ _ _ => rfl

theorem HeaderAnnouncesFrame.readReg (regnum : Word) : HeaderAnnouncesFrame.Statement (.readReg regnum) :=
  HeaderAnnouncesFrame.of_format (f := .fmtA1) (by decide : headerRsvd 7 = 0) (by decide : headerFormat 7 = .fmtA1)
    (by decide) fun _ _ _ => rfl

end Sys2Proof.Laws
end

