-- ==== Sys2Proof/Laws/Sponge.lean ====
section
/-! SUPPORT. Absorbing in parts, padding a message's tail, and the squeeze loop turn by turn. -/

namespace Sys2Proof.Machine

@[simp] theorem absorbBlocks_zero (C : SpongeConfig) (A : Lanes) (M : List Byte) : absorbBlocks C 0 A M = A := rfl

theorem absorbBlocks_succ (C : SpongeConfig) (n : Nat) (A : Lanes) (M : List Byte) :
    absorbBlocks C (n + 1) A M = absorbBlock C (absorbBlocks C n A M) ((M.drop (n * C.rr)).take C.rr) := by
  simp only [absorbBlocks, List.range_succ, List.foldl_append, List.foldl_cons, List.foldl_nil, slice_block]

/-- Absorbing `m + n` blocks is absorbing `m`, then `n` of what follows. -/
theorem absorbBlocks_add (C : SpongeConfig) (m n : Nat) (A : Lanes) (M : List Byte) :
    absorbBlocks C (m + n) A M = absorbBlocks C n (absorbBlocks C m A M) (M.drop (m * C.rr)) := by
  induction n with
  | zero => rw [Nat.add_zero, absorbBlocks_zero]
  | succ n ih => rw [← Nat.add_assoc, absorbBlocks_succ, ih, absorbBlocks_succ, List.drop_drop, ← Nat.add_mul]

/-- The blocks absorbed depend on the bytes they cover alone. -/
theorem absorbBlocks_append (C : SpongeConfig) (n : Nat) (A : Lanes) (M N : List Byte) (h : n * C.rr ≤ M.length) :
    absorbBlocks C n A (M ++ N) = absorbBlocks C n A M := by
  induction n with
  | zero => rw [absorbBlocks_zero, absorbBlocks_zero]
  | succ n ih =>
    rw [Nat.succ_mul] at h
    rw [absorbBlocks_succ, absorbBlocks_succ, ih (by omega), List.drop_append_of_le_length (by omega),
      List.take_append_of_le_length (by rw [List.length_drop]; omega)]

/-- 42_pad10star1_engine.md R151 on whole blocks. -/
theorem singleByteBranch_iff {L q : Nat} (hq : 0 < q) : singleByteBranch L (8 * q) = decide (L % q = q - 1) := by
  have := Nat.mod_lt L hq
  simp only [singleByteBranch, Nat.mul_mod_mul_left]
  by_cases h : L % q = q - 1 <;> simp [h] <;> omega

/-- The blocks of the padded message: one more than the message's whole blocks. -/
theorem blocks_of_pad {L q : Nat} (hq : 0 < q) : q * ceilDiv (L + 1) q = q * (L / q + 1) := by
  rw [ceilDiv, show L + 1 + q - 1 = q + L by omega, Nat.add_div_left _ hq]

theorem pad_length {M : List Byte} {q : Nat} (hq : 0 < q) : (pad M (8 * q)).length = q * (M.length / q + 1) := by
  have hlt := Nat.mod_lt M.length hq
  have hd := Nat.div_add_mod M.length q
  simp only [pad, singleByteBranch_iff hq, Nat.mul_div_cancel_left q (by decide : 0 < 8), blocks_of_pad hq]
  rw [Nat.mul_add, Nat.mul_one]
  split
  · rename_i hb
    have := of_decide_eq_true hb
    simp; omega
  · rename_i hb
    have : M.length % q ≠ q - 1 := fun h => hb (decide_eq_true h)
    simp; omega

/-- Padding looks at a message's tail alone (44_sponge_absorber.md R193). -/
theorem pad_append {M N : List Byte} {q : Nat} (hq : 0 < q) (h : q ∣ M.length) :
    pad (M ++ N) (8 * q) = M ++ pad N (8 * q) := by
  obtain ⟨m, hm⟩ := h
  have hmod : (M ++ N).length % q = N.length % q := by rw [List.length_append, hm, Nat.mul_add_mod]
  have hdiv : (M ++ N).length / q = m + N.length / q := by
    rw [List.length_append, hm, Nat.mul_add_div hq]
  simp only [pad, singleByteBranch_iff hq, hmod, Nat.mul_div_cancel_left q (by decide : 0 < 8), blocks_of_pad hq,
    hdiv]
  split
  · simp
  · have : q * (m + N.length / q + 1) - (M ++ N).length - 2 = q * (N.length / q + 1) - N.length - 2 := by
      rw [List.length_append, hm, Nat.add_assoc, Nat.mul_add q m]
      omega
    rw [this]
    simp

/-- Absorbing whole blocks of a message before it is padded changes nothing (44_sponge_absorber.md R193). -/
theorem absorbPadded_drop {C : SpongeConfig} (hr : C.r = 8 * C.rr) (h0 : 0 < C.rr) (m : Nat) (A : Lanes)
    (M : List Byte) (h : m * C.rr ≤ M.length) :
    absorbPadded C (absorbBlocks C m A M) (M.drop (m * C.rr)) = absorbPadded C A M := by
  have htake : (M.take (m * C.rr)).length = m * C.rr := by simp [h]
  have hsplit : pad M C.r = M.take (m * C.rr) ++ pad (M.drop (m * C.rr)) C.r := by
    conv_lhs => rw [← List.take_append_drop (m * C.rr) M]
    rw [hr, pad_append h0 (by rw [htake]; exact Nat.dvd_mul_left _ _)]
  have hM : absorbBlocks C m A M = absorbBlocks C m A (M.take (m * C.rr)) := by
    conv_lhs => rw [← List.take_append_drop (m * C.rr) M]
    exact absorbBlocks_append C m A _ _ (le_of_eq htake.symm)
  simp only [absorbPadded, hsplit, List.length_append, htake]
  rw [Nat.add_comm (m * C.rr), Nat.add_mul_div_right _ _ h0, Nat.add_comm _ m, absorbBlocks_add,
    absorbBlocks_append C m A _ _ (le_of_eq htake.symm), List.drop_left' htake, hM]

/-- What UPDATE leaves pads and absorbs like what it found with the chunk appended, for any multiple of rr as
super-block (44_sponge_absorber.md R193, R194). -/
theorem absorbPadded_updateEffect {C : SpongeConfig} (hr : C.r = 8 * C.rr) (h0 : 0 < C.rr) {sb : Nat} (hsb : C.rr ∣ sb)
    (chunk more : List Byte) (s : State) :
    absorbPadded C (updateEffect sb C chunk s).lanes ((updateEffect sb C chunk s).buf ++ more) =
      absorbPadded C s.lanes (s.buf ++ chunk ++ more) := by
  simp only [updateEffect, respond_lanes, respond_buf]
  generalize s.buf ++ chunk = M
  obtain ⟨k, hk⟩ : C.rr ∣ M.length - M.length % sb := dvd_trans hsb (Nat.dvd_sub_mod M.length)
  have hle : k * C.rr ≤ M.length := by rw [Nat.mul_comm, ← hk]; omega
  rw [hk, Nat.mul_div_cancel_left k h0, Nat.mul_comm C.rr k, ← List.drop_append_of_le_length hle,
    ← absorbBlocks_append C k s.lanes M more hle]
  exact absorbPadded_drop hr h0 k s.lanes (M ++ more) (by rw [List.length_append]; omega)

theorem keccakTimes_add (w m n : Nat) (A : Lanes) :
    keccakTimes w (m + n) A = keccakTimes w n (keccakTimes w m A) := by
  rw [Nat.add_comm]; exact Function.iterate_add_apply _ _ _ _

theorem outBlock_length {C : SpongeConfig} (h : C.Valid) (A : Lanes) : (outBlock C A).length = C.rr := by
  obtain ⟨_, _, _, _, _, hlt, _⟩ := h.arith
  rw [outBlock, List.length_take, bytesOf_length]
  omega

/-- The block's output block is the stream's (45_sponge_squeezer.md R210). -/
theorem streamBlock_eq (C : SpongeConfig) (S0 : Lanes) (m : Nat) :
    streamBlock C S0 m = outBlock C (keccakTimes C.w m S0) := rfl

@[simp] theorem outputStream_zero (C : SpongeConfig) (S0 : Lanes) : outputStream C S0 0 = [] := rfl

theorem outputStream_length {C : SpongeConfig} (h : C.Valid) (S0 : Lanes) (count : Nat) :
    (outputStream C S0 count).length = count * C.rr :=
  flatMap_range_length _ _ (fun _ => outBlock_length h _) count

/-- The stream goes on with the stream of the permuted state (45_sponge_squeezer.md R216). -/
theorem outputStream_add (C : SpongeConfig) (S0 : Lanes) (m n : Nat) :
    outputStream C S0 (m + n) = outputStream C S0 m ++ outputStream C (keccakTimes C.w m S0) n := by
  simp only [outputStream, List.range_add, List.flatMap_append, List.flatMap_map]
  congr 2
  funext k
  rw [streamBlock_eq, streamBlock_eq, keccakTimes_add]

/-- k = ⌈n/r⌉ blocks are the fewest that hold ⌈n/8⌉ bytes (45_sponge_squeezer.md R211). -/
theorem digestBlocks_bounds {C : SpongeConfig} (h : C.Valid) :
    0 < digestBlocks C ∧ (digestBlocks C - 1) * C.rr < digestLength C ∧ digestLength C ≤ digestBlocks C * C.rr := by
  obtain ⟨_, _, hr, h0, hn, _, _⟩ := h.arith
  have hr0 : 0 < C.r := by omega
  unfold digestBlocks digestLength ceilDiv
  have h1 := Nat.div_add_mod (C.n + C.r - 1) C.r
  have h2 := Nat.mod_lt (C.n + C.r - 1) hr0
  generalize (C.n + C.r - 1) / C.r = k at *
  have hmul : C.r * k = 8 * (k * C.rr) := by rw [hr, Nat.mul_assoc, Nat.mul_comm C.rr]
  have hk : 0 < k := by
    rcases Nat.eq_zero_or_pos k with rfl | hk
    · simp at hmul; omega
    · exact hk
  have hsub : (k - 1) * C.rr = k * C.rr - C.rr := by rw [Nat.sub_mul, Nat.one_mul]
  have hge : C.rr ≤ k * C.rr := Nat.le_mul_of_pos_left _ hk
  omega

/-- The squeeze loop with `j` of the k blocks still to take (45_sponge_squeezer.md R211). -/
theorem squeezeLoop_eq {C : SpongeConfig} (h : C.Valid) (j fuel : Nat) (A : Lanes) (out : List Byte)
    (hj : j < digestBlocks C) (hout : out.length = (digestBlocks C - (j + 1)) * C.rr) (hf : j < fuel) :
    squeezeLoop C fuel A out = (keccakTimes C.w j A, out ++ outputStream C A (j + 1)) := by
  obtain ⟨hk, hlt, hle⟩ := digestBlocks_bounds h
  induction j generalizing fuel A out with
  | zero =>
    obtain ⟨fuel, rfl⟩ : ∃ f, fuel = f + 1 := ⟨fuel - 1, by omega⟩
    have hlen : (out ++ outBlock C A).length = digestBlocks C * C.rr := by
      rw [List.length_append, hout, outBlock_length h, ← Nat.succ_mul]
      congr 1; omega
    simp only [squeezeLoop]
    rw [if_pos (by rw [hlen]; exact hle)]
    simp [keccakTimes, outputStream, streamBlock_eq]
  | succ j ih =>
    obtain ⟨fuel, rfl⟩ : ∃ f, fuel = f + 1 := ⟨fuel - 1, by omega⟩
    have hlen : (out ++ outBlock C A).length = (digestBlocks C - (j + 1)) * C.rr := by
      rw [List.length_append, hout, outBlock_length h, ← Nat.succ_mul]
      congr 1; omega
    have hmono : (digestBlocks C - (j + 1)) * C.rr ≤ (digestBlocks C - 1) * C.rr :=
      Nat.mul_le_mul_right _ (by omega)
    simp only [squeezeLoop]
    rw [if_neg (by rw [hlen]; omega), ih fuel _ _ (by omega) hlen (by omega)]
    have hA : keccakF C.w A = keccakTimes C.w 1 A := rfl
    rw [hA, ← keccakTimes_add, Nat.add_comm 1 j, show j + 1 + 1 = 1 + (j + 1) by omega, outputStream_add C A 1 (j + 1)]
    simp [outputStream, streamBlock_eq, keccakTimes]

/-- The super-block is a positive multiple of the block size (44_sponge_absorber.md R191). -/
theorem superBlock_multiple {C : SpongeConfig} (h : C.Valid) : 0 < superBlock C ∧ C.rr ∣ superBlock C := by
  obtain ⟨_, hb, hr, h0, _⟩ := h.arith
  have : superBlock C = C.rr * C.b := by
    unfold superBlock
    rw [hr, Nat.mul_assoc, Nat.mul_div_cancel_left _ (by decide)]
  rw [this]
  exact ⟨Nat.mul_pos h0 (by omega), Dvd.intro _ rfl⟩

/-- What UPDATE leaves buffered is shorter than one super-block. -/
theorem updateEffect_buf_length {sb : Nat} (h : 0 < sb) (C : SpongeConfig) (chunk : List Byte) (s : State) :
    (updateEffect sb C chunk s).buf.length < sb := by
  have := Nat.mod_lt (s.buf ++ chunk).length h
  simp only [updateEffect, respond_buf, List.length_drop]
  omega

@[simp] theorem maskLastByte_length (n : Nat) (out : List Byte) : (maskLastByte n out).length = out.length := by
  unfold maskLastByte
  split <;> simp

/-- squeeze_tail in terms of the output stream (45_sponge_squeezer.md R211, R216). -/
theorem squeezeTail_eq {C : SpongeConfig} (h : C.Valid) (A : Lanes) :
    squeezeTail C A = (keccakTimes C.w (digestBlocks C - 1) A,
      maskLastByte C.n ((outputStream C A (digestBlocks C)).take (digestLength C))) := by
  obtain ⟨hk, hlt, _⟩ := digestBlocks_bounds h
  obtain ⟨_, _, _, h0, _, _, _⟩ := h.arith
  have hfuel : digestBlocks C - 1 < digestLength C :=
    lt_of_le_of_lt (Nat.le_mul_of_pos_right _ h0) hlt
  have e : digestBlocks C - 1 + 1 = digestBlocks C := by omega
  rw [squeezeTail, squeezeLoop_eq h (digestBlocks C - 1) _ A [] (by omega) (by rw [e]; simp) hfuel]
  simp only [e, List.nil_append]

theorem streamOutput_zero (C : SpongeConfig) (A : Lanes) :
    streamOutput C A 0 = maskLastByte C.n ((outputStream C A (digestBlocks C)).take (digestLength C)) := by
  simp [streamOutput, slice]

/-- A later output is the first output of a later state (45_sponge_squeezer.md R216). -/
theorem streamOutput_eq {C : SpongeConfig} (h : C.Valid) (A : Lanes) (q : Nat) :
    streamOutput C A q = streamOutput C (keccakTimes C.w (q * digestBlocks C) A) 0 := by
  rw [streamOutput_zero]
  simp only [streamOutput]
  rw [Nat.succ_mul, outputStream_add, slice_eq, List.drop_left' (outputStream_length h A _)]
  simp

end Sys2Proof.Machine
end

