-- ==== Sys2Proof/Tests/Slice0.lean ====
section
/-! SUPPORT. The model's own tests, their expected values from spec/95_test_vectors.md and the examples of the rules,
and for each statement with hypotheses the states and operands that meet them. -/

namespace Sys2Proof.Tests

set_option Elab.async false

open Sys2Proof.Machine

/-! ### Helpers -/

/-- The outcome is a next state with `p`. -/
def nextWith (o : Host.Outcome State Fault Refusal) (p : State → Bool) : Bool :=
  match o with
  | .next t => p t
  | .fault _ => false
  | .refused _ => false

/-- ABSORBING under a configuration, buffer `buf`. -/
def absorbing (C : SpongeConfig) (buf : List Byte) : State :=
  { State.reset with phase := .absorbing, cfg := some C, buf := buf }

/-- SQUEEZING under a configuration, every lane 0. -/
def squeezing (C : SpongeConfig) : State := { State.reset with phase := .squeezing, cfg := some C }

/-- The 25 lanes in the order the spec prints them: rows y = 0..4, columns x = 0..4. -/
def rows (A : Lanes) : List Lane :=
  (List.range 25).map fun k => A.lane (Fin.ofNat 5 k) (Fin.ofNat 5 (k / 5))

/-- The lane array with 1 in A[0][0]. -/
def oneLane : Lanes := Lanes.tabulate fun x y => if x = 0 ∧ y = 0 then 1 else 0

/-- A state with bytes and then `later` at its input. -/
def atInput (bs : List Byte) (later : List InEvent) : State := { State.reset with inbox := bs.map .byte ++ later }

abbrev cfg8 : SpongeConfig := deriveConfig 40 160 8
abbrev cfg80 : SpongeConfig := deriveConfig 40 160 80

/-! ### Well-formedness: the one check (30_encoding.md R74, R75) -/

theorem test_wellFormed_payload_max :
    (Instr.update (List.replicate 4294967295 0)).wellFormed = true := by
  simp only [Instr.wellFormed, List.length_replicate]
  decide

theorem test_illFormed_update : (Instr.update (List.replicate 4294967296 0)).wellFormed = false := by
  simp only [Instr.wellFormed, List.length_replicate]
  decide

theorem test_illFormed_digest : (Instr.digest (List.replicate 4294967296 0)).wellFormed = false := by
  simp only [Instr.wellFormed, List.length_replicate]
  decide

/-! ### Decoding: frames of 95_test_vectors.md section 2.15 and 2.14 -/

theorem test_decode_init :
    decode [0x01, 0, 0, 0, 0x28, 0, 0, 0, 0xA0, 0, 0, 0, 0x50, 0, 0, 0] = .frame (.init 40 160 80) [] := by decide

/-- V-FRM-1, as bits: word 0 is the header, word 1 R, word 2 C, word 3 N. -/
theorem test_decodeTableWord_init :
    decodeTableWord 128 0x00000100000002000000044000000001 = some (.init 1088 512 256) := by decide

theorem test_decode_update :
    decode [0x02, 0, 0, 0, 0x02, 0, 0, 0, 0x61, 0x62] = .frame (.update [0x61, 0x62]) [] := by decide

theorem test_decode_digest :
    decode [0x03, 0, 0, 0, 0x03, 0, 0, 0, 0x61, 0x62, 0x63] = .frame (.digest [0x61, 0x62, 0x63]) [] := by decide

theorem test_decode_digest_empty : decode [0x03, 0, 0, 0, 0, 0, 0, 0] = .frame (.digest []) [] := by decide

theorem test_decode_squeeze : decode [0x04, 0, 0, 0] = .frame .squeeze [] := by decide

theorem test_decode_simpleSqueeze :
    decode [0x05, 0, 0, 0, 0x01, 0, 0, 0] = .frame (.simpleSqueeze 1) [] := by decide

theorem test_decode_fastSqueeze : decode [0x06, 0, 0, 0, 0x01, 0, 0, 0] = .frame (.fastSqueeze 1) [] := by decide

/-- V-REG-3. -/
theorem test_decode_readReg :
    decode [0x07, 0, 0, 0, 0xFF, 0xFF, 0xFF, 0xFF] = .frame (.readReg 0xFFFFFFFF) [] := by decide

/-- V-ERR-1, V-ERR-4: unassigned opcodes. -/
theorem test_decode_unassigned :
    decode [0x08, 0, 0, 0] = .illegal (.unassignedOpcode 8) [] ∧
    decode [0, 0, 0, 0] = .illegal (.unassignedOpcode 0) [] := by decide

/-- V-ERR-3, V-ERR-10: reserved bits set; four bytes, and what follows is the next frame. -/
theorem test_decode_reserved :
    decode [0x01, 0xFF, 0xFF, 0xFF, 0x07] = .illegal (.reservedBitsSet 0xFFFFFF01) [0x07] ∧
    decode [0x04, 0x01, 0, 0] = .illegal (.reservedBitsSet 0x104) [] := by decide

/-- 30_encoding.md R77: the decoder never reads past a frame's end. -/
theorem test_decode_back_to_back :
    decode [0x02, 0, 0, 0, 0x01, 0, 0, 0, 0x61, 0x04, 0, 0, 0] = .frame (.update [0x61]) [0x04, 0, 0, 0] := by decide

theorem test_decode_short_payload : decode [0x02, 0, 0, 0, 0x02, 0, 0, 0, 0x61] = .incomplete := by decide

/-- V-FRM-4, the other way. -/
theorem test_encode_digest :
    encode (.digest [0x61, 0x62, 0x63]) = [0x03, 0, 0, 0, 0x03, 0, 0, 0, 0x61, 0x62, 0x63] := by decide

/-- A row that gives LEN no bits stands for the empty payload. -/
theorem test_decodeTableWord_short_row : decodeTableWord 32 0x00000003 = some (.digest []) := by decide

/-- 30_encoding.md R79's example, and a line with every operand form. -/
theorem test_assemble_digest : assembleLine "DIGEST \"abc\"".toList = some [.digest [0x61, 0x62, 0x63]] := by
  decide +kernel

theorem test_assemble_bytes :
    assembleLine "UPDATE \"a;\" ++ x\"6B\" ++ zeros(2) ; note".toList = some [.update [0x61, 0x3B, 0x6B, 0, 0]] := by
  decide +kernel

/-! ### Rotation, rounds, permutation (sections 2.1 to 2.3) -/

/-- V-ROT-1, 2, 4, 5. -/
theorem test_rotl : rotl 8 0x01 62 = 0x40 ∧ rotl 64 0x8000000000000001 1 = 3 ∧ rotl 32 0x80000000 36 = 8 ∧
    rotl 16 0x0123 20 = 0x1230 := by decide

/-- V-RND-3. -/
theorem test_round : rows (keccakRound 64 oneLane 1) =
    [0x0000000000000000, 0x0000100000000000, 0x0000000000008000, 0x0000000000000001, 0x0000100000008000,
     0x0000000000000000, 0x0000200000200000, 0x0000000000000000, 0x0000200000000000, 0x0000000000200000,
     0x0000000000000002, 0x0000000000000200, 0x0000000000000000, 0x0000000000000202, 0x0000000000000000,
     0x0000000010000400, 0x0000000000000000, 0x0000000000000400, 0x0000000010000000, 0x0000000000000000,
     0x0000010000000000, 0x0000000000000000, 0x0000010000000004, 0x0000000000000000, 0x0000000000000004] := by
  decide +kernel

/-- V-PRM-5. -/
theorem test_keccakF8 : rows (keccakF 8 Lanes.zero) =
    [0x3C, 0x28, 0x26, 0x84, 0x1C, 0xB3, 0x5C, 0x17, 0x1E, 0xAA, 0xE9, 0xB8, 0x11, 0x13, 0x4C,
     0xEA, 0xA3, 0x85, 0x2C, 0x69, 0xD2, 0xC5, 0xAB, 0xAF, 0xEA] := by decide +kernel

/-- 20_memory.md R53, R55: the bytes 61 62 63 give A[0][0] = 0x636261. -/
theorem test_lanesOf : (lanesOf 64 ([0x61, 0x62, 0x63] ++ zeros 197)).lane 0 0 = 0x636261 := by decide +kernel

/-- E1: block lane 1 is A[1][0], at storage index 5. -/
theorem test_lane_order : (lanesOf 8 (zeros 1 ++ [0xAB] ++ zeros 23))[5] = 0xAB := by decide +kernel

/-! ### Padding (section 2.4) -/

/-- V-PAD-9, 11, 12. -/
theorem test_pad_small : pad [7] 8 = [7, 0x81] ∧ pad [] 16 = [0x01, 0x80] ∧ pad [7] 16 = [7, 0x81] := by decide

/-- V-PAD-14, 16. -/
theorem test_pad_40 : pad [1, 2, 3] 40 = [1, 2, 3, 0x01, 0x80] ∧
    pad [1, 2, 3, 4, 5] 40 = [1, 2, 3, 4, 5, 0x01, 0, 0, 0, 0x80] := by decide

/-! ### Commands -/

/-- V-REG-2, through the registers. -/
theorem test_init : nextWith (exec (.init 40 160 80) State.reset) (fun t =>
    decide ((List.range 7).map (readRegister · t) = [0x1, 0x28, 0xA0, 0x50, 0x8, 0x12, 0x4B430001])) = true := by decide

/-- V-INIT-17, 20, 21, 22: STATUS after a failed INIT. -/
theorem test_init_errors :
    [((8 : Word), (8 : Word)), (4294967288, 4294967288), (400, 200), (1600, 1600)].map (fun a =>
      nextWith (exec (.init a.1 a.2 8) State.reset) fun t => decide (statusRegister t = 0x00010300)) =
      [true, true, false, false] ∧
    nextWith (exec (.init 400 200 64) State.reset) (fun t => decide (statusRegister t = 0x00010400)) = true ∧
    nextWith (exec (.init 1600 1600 8) State.reset) (fun t => decide (statusRegister t = 0x00010400)) = true := by
  decide

/-- Section 2.6: below one super-block UPDATE only buffers; the response is V-FRM-11. -/
theorem test_update : nextWith (exec (.update [0x61, 0x62]) (absorbing cfg8 [0x60])) (fun t =>
    decide (t.buf = [0x60, 0x61, 0x62] ∧ t.lanes = State.reset.lanes ∧ t.outbox = zeros 8)) = true := by decide

/-- V-DIG-14: DIGEST "abc", streamed as in program P2. -/
theorem test_digest : nextWith (exec (.digest [0x63]) (absorbing cfg8 [0x61, 0x62])) (fun t =>
    decide (t.outbox = [0, 0, 0, 0, 1, 0, 0, 0, 0x37] ∧ t.phase = .squeezing ∧ t.buf = [])) = true := by
  decide +kernel

/-- SQUEEZE permutes before it extracts: A[0][0] of V-PRM-5. -/
theorem test_squeeze : nextWith (exec .squeeze (squeezing cfg8)) (fun t =>
    decide (t.outbox = [0, 0, 0, 0, 1, 0, 0, 0, 0x3C] ∧ t.phase = .squeezing)) = true := by decide +kernel

/-- SIMPLE_SQUEEZE 0 is legal and changes nothing (45_sponge_squeezer.md R214). -/
theorem test_simpleSqueeze_zero : nextWith (exec (.simpleSqueeze 0) (squeezing cfg80)) (fun t =>
    decide (t.lanes = State.reset.lanes ∧ t.outbox = zeros 8)) = true := by decide

/-- FAST_SQUEEZE 1 with k = 1 is one permutation, V-PRM-5 (45_sponge_squeezer.md R214, R215). -/
theorem test_fastSqueeze : nextWith (exec (.fastSqueeze 1) (squeezing cfg8)) (fun t =>
    decide ((rows t.lanes).take 5 = [0x3C, 0x28, 0x26, 0x84, 0x1C] ∧ t.outbox = zeros 8)) = true := by decide +kernel

/-- V-REG-1. -/
theorem test_readReg_id : nextWith (exec (.readReg 6) State.reset) (fun t =>
    decide (t.outbox = [0, 0, 0, 0, 4, 0, 0, 0, 0x01, 0, 0x43, 0x4B])) = true := by decide

/-- V-REG-3. -/
theorem test_readReg_reserved : nextWith (exec (.readReg 7) State.reset) (fun t =>
    decide (statusRegister t = 0x00010100)) = true := by decide

/-- V-ERR-5, V-ERR-8 and 60_exceptions.md R264: out of phase. -/
theorem test_out_of_phase :
    nextWith (exec .squeeze State.reset) (fun t => decide (statusRegister t = 0x00010200)) = true ∧
    nextWith (exec (.update [0x78]) (squeezing cfg8)) (fun t =>
      decide (statusRegister t = 0x00010202 ∧ t.lanes = State.reset.lanes ∧ t.buf = [])) = true := by decide

/-- V-MSK-2: the low 4 bits of 0xC5. -/
theorem test_mask : maskLastByte 4 [0xC5] = [0x05] ∧ maskLastByte 12 [0xC5, 0xD2] = [0xC5, 0x02] ∧
    maskLastByte 255 [0xC5] = [0xC5] := by decide

/-! ### Steps -/

/-- V-ERR-10, then the next frame in the stream. -/
theorem test_step_illegal : nextWith (step (atInput [0x04, 0x01, 0, 0, 0x07] [])) (fun t =>
    decide (statusRegister t = 0x00010100 ∧ t.inbox = [.byte 0x07])) = true := by decide

/-- 70_reset_and_hazards.md R290: reset drops a partly received frame. -/
theorem test_step_reset : nextWith (step (atInput [0x07, 0, 0] [.reset, .byte 0x04])) (fun t =>
    decide (t = { State.reset with inbox := [.byte 0x04] })) = true := by decide

/-- 70_reset_and_hazards.md R291: no response for the abandoned command. The second input has a byte of the next frame
behind the command (R296). -/
theorem test_step_reset_mid_command :
    nextWith (step (atInput [0x07, 0, 0, 0, 0x06, 0, 0, 0] [.resetMidCommand 0])) (fun t =>
      decide (t = State.reset)) = true ∧
    nextWith (step (atInput [0x07, 0, 0, 0, 0x06, 0, 0, 0, 0x04] [.resetMidCommand 1])) (fun t =>
      decide (t = State.reset)) = true := by decide

/-- The first of two frames runs when the reset arrives during the second. -/
theorem test_step_reset_in_second_command :
    nextWith (step (atInput [0x07, 0, 0, 0, 0x06, 0, 0, 0, 0x04, 0, 0, 0] [.resetMidCommand 0])) (fun t =>
      decide (t.outbox.length = 12 ∧ t.inbox = [.byte 0x04, .byte 0, .byte 0, .byte 0, .resetMidCommand 0])) = true := by
  decide

/-- A complete command before a reset is executed and answered. -/
theorem test_step_before_reset : nextWith (step (atInput [0x07, 0, 0, 0, 0x06, 0, 0, 0] [.reset])) (fun t =>
    decide (t.inbox = [.reset] ∧ t.outbox.length = 12)) = true := by decide

theorem test_withFetchWord : nextWith (step (State.reset.withFetchWord 64 0x0000000600000007)) (fun t =>
    decide (t.outbox = [0, 0, 0, 0, 4, 0, 0, 0, 0x01, 0, 0x43, 0x4B] ∧ t.inbox = [])) = true := by decide

/-! ### Witnesses: states and operands that meet the hypotheses of the statements -/

theorem witness_RotationMovesBitsModuloWidth :
    (0 < 8 ∧ 8 ≤ 64 ∧ (0xFF : Lane).toNat < 2 ^ 8) ∧
    (0 < 64 ∧ 64 ≤ 64 ∧ (0xFFFFFFFFFFFFFFFF : Lane).toNat < 2 ^ 64) := by decide

theorem witness_AcceptedWordSizes : validate 8 192 1 = .ok ∧ validate 1592 8 (2 ^ 32 - 1) = .ok := by decide

/-- Valid configurations at both ends of the word sizes and of the bitrate. -/
theorem valid_cfg8 : cfg8.Valid := ⟨by decide, by decide, by decide⟩

theorem valid_cfg80 : cfg80.Valid := ⟨by decide, by decide, by decide⟩

theorem valid_smallest : (deriveConfig 8 192 1).Valid := ⟨by decide, by decide, by decide⟩

theorem valid_largest : (deriveConfig 1592 8 (2 ^ 32 - 1)).Valid := ⟨by decide, by decide, by decide⟩

theorem inRange_reset (w : Nat) : State.reset.lanes.inRange w := by
  intro x y
  rw [show State.reset.lanes = Vector.replicate 25 0 from rfl, lane_replicate]
  exact Nat.two_pow_pos w

theorem inv_reset : State.reset.Inv :=
  ⟨fun _ => ⟨rfl, rfl, fun _ _ => lane_replicate _ _ _⟩, by simp [State.reset], by simp [State.reset],
    by simp [State.reset]⟩

/-- The invariant in ABSORBING, with the longest buffer it allows. -/
theorem inv_absorbing : (absorbing cfg8 (zeros 999)).Inv :=
  ⟨by simp [absorbing], fun _ => ⟨cfg8, rfl, valid_cfg8, inRange_reset _, by
      simp only [absorbing, zeros_length]; decide⟩, by simp [absorbing], by simp [absorbing, State.reset]⟩

theorem inv_squeezing : (squeezing cfg8).Inv :=
  ⟨by simp [squeezing], by simp [squeezing], fun _ => ⟨cfg8, rfl, valid_cfg8, inRange_reset _, rfl⟩,
    by simp [squeezing, State.reset]⟩

/-- The invariant with the sticky bit set. -/
theorem inv_after_error : ({ State.reset with lastStatus := .sequenceError, errSeen := true } : State).Inv :=
  ⟨fun _ => ⟨rfl, rfl, fun _ _ => lane_replicate _ _ _⟩, by simp [State.reset], by simp [State.reset], by simp⟩

theorem witness_StepKeepsInvariant : ∃ s t : State, s.Inv ∧ step s = .next t ∧ t.phase = .absorbing := by
  refine ⟨atInput (encode (.init 40 160 8)) [], _, ?_, rfl, by decide⟩
  exact ⟨inv_reset.unconfigured, inv_reset.absorbing, inv_reset.squeezing, inv_reset.sticky⟩

theorem witness_InvariantStatesNeverStop : ∃ s : State, s.Inv := ⟨_, inv_absorbing⟩

theorem witness_OnlyInitChangesConfiguration :
    ∃ (i : Instr) (s t : State), (∀ r c n, i ≠ .init r c n) ∧ exec i s = .next t ∧ s.cfg ≠ none :=
  ⟨.simpleSqueeze 0, squeezing cfg8, _, by simp, rfl, by decide⟩

theorem witness_LanesAreHiddenFromOtherCommands :
    ∃ (i : Instr) (s t : State), (∀ bs, i ≠ .digest bs) ∧ i ≠ .squeeze ∧ exec i s = .next t :=
  ⟨.update [0x61], absorbing cfg8 [], _, by simp, by simp, rfl⟩

theorem witness_LanesAndBytesAreInverse :
    (Lanes.zero.inRange 8 ∧ (zeros 25).length = 25 * (8 / 8)) ∧
    (Lanes.zero.inRange 64 ∧ (zeros 200).length = 25 * (64 / 8)) :=
  ⟨⟨inRange_zero 8, by decide⟩, inRange_zero 64, by simp⟩

theorem witness_BytesGoToLanesLittleEndian :
    ((zeros 25).length = 25 * (8 / 8) ∧ 0 < 8 / 8) ∧ (zeros 200).length = 25 * (64 / 8) ∧ 7 < 64 / 8 :=
  ⟨by decide, by simp, by decide⟩

theorem witness_AbsorbTouchesOnlyTheRateBytes :
    (cfg8.Valid ∧ Lanes.zero.inRange cfg8.w ∧ (zeros 5).length = cfg8.rr) ∧
    ((deriveConfig 8 192 1).Valid ∧ (zeros 1).length = (deriveConfig 8 192 1).rr) ∧
    (deriveConfig 1592 8 (2 ^ 32 - 1)).Valid ∧ (zeros 199).length = (deriveConfig 1592 8 (2 ^ 32 - 1)).rr :=
  ⟨⟨valid_cfg8, inRange_zero _, by decide⟩, ⟨valid_smallest, by decide⟩, valid_largest, by rw [zeros_length]; decide⟩

theorem witness_DecodeInvertsEncode :
    (Instr.update []).wellFormed = true ∧ (Instr.digest (List.replicate 4294967295 0)).wellFormed = true :=
  ⟨by decide, by simp only [Instr.wellFormed, List.length_replicate]; decide⟩

theorem witness_DecodedFrameIsItsEncoding : decode [0x04, 0, 0, 0, 0x05] = .frame .squeeze [0x05] := by decide

/-- Both sides of the ends 0, 1, 7, 8 of the legal headers. -/
theorem witness_IllegalHeaders :
    decode (wordBytes 0) = .illegal (.unassignedOpcode 0) [] ∧ decode (wordBytes 1) = .incomplete ∧
    decode (wordBytes 7) = .incomplete ∧ decode (wordBytes 8) = .illegal (.unassignedOpcode 8) [] ∧
    decode (wordBytes 0x101) = .illegal (.reservedBitsSet 0x101) [] := by decide

theorem witness_DecoderWaitsForTheWholeFrame :
    ([] : List Byte).length < 4 ∧ [0x04, 0, (0 : Byte)].length < 4 ∧
    (Instr.update [0x61]).wellFormed = true ∧ 0 < (encode (.update [0x61])).length ∧
    8 < (encode (.update [0x61])).length := by decide

theorem witness_StepRunsDecodedCommand :
    decode (encode (.readReg 6)) = .frame (.readReg 6) [] ∧
    (∃ s : State, s.inbox = (encode (.readReg 6)).map .byte ++ []) ∧
    ∀ later ∈ [[], [InEvent.byte 4], [.reset], [.byte 4, .resetMidCommand 0], [.resetMidCommand 1]],
      ∀ (unread : List Byte) after, later ≠ unread.map .byte ++ .resetMidCommand unread.length :: after := by
  refine ⟨by decide, ⟨atInput (encode (.readReg 6)) [], rfl⟩, ?_⟩
  intro later hl unread after h
  rcases unread with _ | ⟨a, _ | ⟨b, unread⟩⟩ <;> subst h <;> simp at hl

theorem witness_StepRejectsIllegalFrame :
    decode [0x08, 0, 0, 0] = .illegal (.unassignedOpcode 8) [] ∧
    (∃ s : State, s.inbox = [0x08, 0, 0, 0].map .byte ++ [.reset]) ∧
    ∀ (unread : List Byte) after, [InEvent.reset] ≠ unread.map .byte ++ .resetMidCommand unread.length :: after := by
  refine ⟨by decide, ⟨atInput [0x08, 0, 0, 0] [.reset], rfl⟩, ?_⟩
  intro unread after h
  cases unread <;> simp at h

theorem witness_StepWaitsForBytes :
    decode [] = .incomplete ∧ decode [0x02, 0, 0, 0, 1, 0, 0, 0] = .incomplete ∧
    ∃ s : State, s.inbox = [0x02, 0, 0, 0, 1, 0, 0, 0].map .byte :=
  ⟨by decide, by decide, atInput [0x02, 0, 0, 0, 1, 0, 0, 0] [], rfl⟩

theorem witness_ResetDiscardsPartialFrame :
    (∃ s : State, s.inbox = ([] : List Byte).map .byte ++ .reset :: [.byte 4]) ∧
    ∃ s : State, decode [0x07, 0] = .incomplete ∧ s.inbox = [0x07, 0].map .byte ++ .resetMidCommand 0 :: [] :=
  ⟨⟨atInput [] [.reset, .byte 4], rfl⟩, atInput [0x07, 0] [.resetMidCommand 0], by decide, rfl⟩

theorem witness_RunningCommandIsAbandonedByReset :
    (∃ s : State, decode [0x04, 0, 0, 0] = .frame .squeeze [] ∧
      s.inbox = [0x04, 0, 0, 0].map .byte ++ ([] : List Byte).map .byte ++ .resetMidCommand 0 :: []) ∧
    ∃ s : State, decode [0, 0, 0, 0] = .illegal (.unassignedOpcode 0) [] ∧
      s.inbox = [0, 0, 0, 0].map .byte ++ [0x04, 0, (0 : Byte)].map .byte ++ .resetMidCommand 3 :: [] :=
  ⟨⟨atInput [0x04, 0, 0, 0] [.resetMidCommand 0], by decide, rfl⟩,
    atInput [0, 0, 0, 0, 0x04, 0, 0] [.resetMidCommand 3], by decide, rfl⟩

theorem witness_ChiLanes : (8 ≤ 64 ∧ oneLane.inRange 8) ∧ 64 ≤ 64 ∧ oneLane.inRange 64 := by
  have h : ∀ w, 0 < w → oneLane.inRange w := by
    intro w hw x y
    have : 2 ≤ 2 ^ w := Nat.le_self_pow (by omega) 2
    simp only [oneLane, lane_tabulate]
    split
    · simp; omega
    · simp
  exact ⟨⟨by decide, h 8 (by decide)⟩, by decide, h 64 (by decide)⟩

theorem witness_IotaLanes : ((0, 1) : Fin 5 × Fin 5) ≠ (0, 0) ∧ ((4, 4) : Fin 5 × Fin 5) ≠ (0, 0) := by decide

/-- The ends of the walk, t = 0 and t = 23, with the offsets of the table in 40_keccak_f_round.md R105. -/
theorem witness_RotationOffsetsFollowTheRecurrence :
    offsetWalk 0 = (1, 0) ∧ rotationOffset 1 0 = 1 ∧ offsetWalk 23 = (1, 1) ∧ rotationOffset 1 1 = 44 := by decide

theorem witness_RoundConstantsFollowTheLfsr : (0 < 24 ∧ 0 < 64) ∧ 23 < 24 ∧ 63 < 64 := by decide

theorem witness_PermutationKeepsLanesInRange :
    (0 < 8 ∧ 8 ≤ 64 ∧ Lanes.zero.inRange 8) ∧ (0 < 64 ∧ 64 ≤ 64 ∧ Lanes.zero.inRange 64) ∧
    cfg8.Valid ∧ Lanes.zero.inRange cfg8.w :=
  ⟨⟨by decide, by decide, inRange_zero 8⟩, ⟨by decide, by decide, inRange_zero 64⟩, valid_cfg8, inRange_zero _⟩

/-- Both branches at the smallest and the largest bitrate that has them. -/
theorem witness_PaddingBranches :
    (8 ≤ 8 ∧ 8 % 8 = 0 ∧ ([] : List Byte).length % (8 / 8) = 8 / 8 - 1) ∧
    (1592 % 8 = 0 ∧ (zeros 198).length % (1592 / 8) = 1592 / 8 - 1) ∧
    (16 % 8 = 0 ∧ ([] : List Byte).length % (16 / 8) ≠ 16 / 8 - 1) ∧
    (1592 % 8 = 0 ∧ (zeros 197).length % (1592 / 8) ≠ 1592 / 8 - 1) := by
  simp

theorem witness_PaddingLaws : (8 ≤ 8 ∧ 8 % 8 = 0) ∧ 8 ≤ 1592 ∧ 1592 % 8 = 0 := by decide

/-- Every word size, and the ends of r, c and n. -/
theorem witness_InitStartsComputation :
    (0 < 8 ∧ 0 < 192 ∧ 0 < 1 ∧ 8 % 8 = 0 ∧ 192 % 8 = 0 ∧ 8 + 192 = 25 * 2 ^ 3 ∧ 3 ≤ 6) ∧
    (40 + 360 = 25 * 2 ^ 4 ∧ 544 + 256 = 25 * 2 ^ 5) ∧
    (0 < 1592 ∧ 0 < 8 ∧ 0 < 2 ^ 32 - 1 ∧ 1592 % 8 = 0 ∧ 8 % 8 = 0 ∧ 1592 + 8 = 25 * 2 ^ 6 ∧ 6 ≤ 6) := by decide

/-- V-INIT-14, 15, 16, 13, 17 for the first clause; V-INIT-21, 22 for the second. -/
theorem witness_InitRejectsBadConfiguration :
    ((0 : Word).toNat = 0 ∧ (1087 : Word).toNat % 8 ≠ 0 ∧ ((8 : Word).toNat + (8 : Word).toNat) % 25 ≠ 0) ∧
    (¬((400 : Word).toNat % 8 ≠ 0 ∨ (200 : Word).toNat % 8 ≠ 0 ∨ (400 + 200) % 25 ≠ 0) ∧
      ∀ l ≤ 6, 400 + 200 ≠ 25 * 2 ^ l) ∧
    ((1600 + 1600) % 25 = 0 ∧ ∀ l ≤ 6, 1600 + 1600 ≠ 25 * 2 ^ l) := by decide

theorem witness_InitForgetsThePast : ∃ s t : State,
    s.inbox = t.inbox ∧ s.outbox = t.outbox ∧ s.errSeen = t.errSeen ∧ s.phase ≠ t.phase ∧ s.buf ≠ t.buf :=
  ⟨State.reset, absorbing cfg8 [1], rfl, rfl, rfl, by decide, by decide⟩

theorem witness_ReadRegAnswersTheRegister : (0 : Word).toNat ≤ 6 ∧ (6 : Word).toNat ≤ 6 := by decide

theorem witness_ReadRegOfReservedNumber : 7 ≤ (7 : Word).toNat ∧ 7 ≤ (0xFFFFFFFF : Word).toNat := by decide

theorem witness_UpdateAbsorbsWholeSuperBlocks :
    (absorbing cfg8 [1]).phase = .absorbing ∧ (absorbing cfg8 [1]).cfg = some cfg8 := by decide

/-- V-UPD-5: 999 bytes are the most that stay below the super-block of 1000. -/
theorem witness_ShortUpdateOnlyBuffers :
    ∃ (s : State) (C : SpongeConfig) (chunk : List Byte), s.phase = .absorbing ∧ s.cfg = some C ∧
      s.buf.length + chunk.length < C.r * C.b / 8 ∧ s.buf.length + chunk.length + 1 = C.r * C.b / 8 :=
  ⟨absorbing cfg8 [1], cfg8, zeros 998, rfl, rfl, by simp only [zeros_length]; decide, by simp only [zeros_length]; decide⟩

theorem witness_UpdateKeepsBufferBelowSuperBlock :
    ∃ (s t : State) (C : SpongeConfig), s.phase = .absorbing ∧ s.cfg = some C ∧ C.Valid ∧
      exec (.update [0x61]) s = .next t :=
  ⟨absorbing cfg8 [], _, cfg8, rfl, rfl, valid_cfg8, rfl⟩

theorem witness_ChunkingDoesNotMatter :
    ∃ (s : State) (C : SpongeConfig), s.phase = .absorbing ∧ s.cfg = some C ∧ C.Valid ∧ s.buf = [] :=
  ⟨absorbing cfg8 [], cfg8, rfl, rfl, valid_cfg8, rfl⟩

/-- The block's own batch size, and one block at a time. -/
theorem witness_BatchSizeIsUnobservable :
    (∀ C : SpongeConfig, C.Valid → 0 < superBlock C ∧ C.rr ∣ superBlock C) ∧
    (∀ C : SpongeConfig, C.Valid → 0 < C.rr ∧ C.rr ∣ C.rr) ∧ (absorbing cfg8 (zeros 999)).Inv :=
  ⟨fun _ h => superBlock_multiple h, fun _ h => ⟨h.arith.2.2.2.1, Nat.dvd_refl _⟩, inv_absorbing⟩

/-- One block and no mask, two blocks, and one byte of one bit. -/
theorem witness_SqueezeTailExtractsOneDigest : cfg8.Valid ∧ cfg80.Valid ∧ (deriveConfig 8 192 1).Valid :=
  ⟨valid_cfg8, valid_cfg80, valid_smallest⟩

/-- Two states that differ in a capacity lane alone, with one block of output and with two. -/
theorem witness_CapacityIsNeverOutput :
    (cfg8.Valid ∧ cfg8.n ≤ cfg8.r) ∧ (cfg80.Valid ∧ ¬cfg80.n ≤ cfg80.r) ∧
    ∃ A B : Lanes, A ≠ B ∧ (bytesOf cfg8.w A).take cfg8.rr = (bytesOf cfg8.w B).take cfg8.rr :=
  ⟨⟨valid_cfg8, by decide⟩, ⟨valid_cfg80, by decide⟩, Lanes.zero,
    Lanes.tabulate fun x y => if x = 0 ∧ y = 1 then 1 else 0, by decide +kernel, by decide +kernel⟩

theorem witness_DigestPadsAbsorbsAndSqueezes :
    (absorbing cfg80 [1]).phase = .absorbing ∧ (absorbing cfg80 [1]).cfg = some cfg80 ∧ cfg80.Valid :=
  ⟨rfl, rfl, valid_cfg80⟩

theorem witness_SqueezePermutesAndExtracts :
    (squeezing cfg80).phase = .squeezing ∧ (squeezing cfg80).cfg = some cfg80 ∧ cfg80.Valid :=
  ⟨rfl, rfl, valid_cfg80⟩

theorem witness_SimpleSqueezePermutes :
    (squeezing cfg80).phase = .squeezing ∧ (squeezing cfg80).cfg = some cfg80 := by decide

theorem witness_FastSqueezePermutes :
    (squeezing cfg8).phase = .squeezing ∧ (squeezing cfg8).cfg = some cfg8 := by decide

theorem witness_SqueezesReadTheOutputStream :
    (absorbing cfg8 []).phase = .absorbing ∧ (absorbing cfg8 []).cfg = some cfg8 ∧ cfg8.Valid :=
  ⟨rfl, rfl, valid_cfg8⟩

theorem witness_FastSqueezeSkipsOutputs :
    (squeezing cfg8).phase = .squeezing ∧ (squeezing cfg8).cfg = some cfg8 ∧ cfg8.Valid :=
  ⟨rfl, rfl, valid_cfg8⟩

theorem witness_DigestStableUnderLongerOutput :
    ∃ (s t t' : State), s.phase = .absorbing ∧ s.cfg = some (deriveConfig 40 160 8) ∧
      (deriveConfig 40 160 8).Valid ∧ (deriveConfig 40 160 80).Valid ∧ 8 < 80 ∧
      exec (.digest [0x61]) s = .next t ∧
      exec (.digest [0x61]) { s with cfg := some (deriveConfig 40 160 80) } = .next t' :=
  ⟨absorbing cfg8 [], _, _, rfl, rfl, valid_cfg8, valid_cfg80, by decide,
    execDigest_absorbing (C := cfg8) rfl rfl _, execDigest_absorbing (C := cfg80) rfl rfl _⟩

theorem witness_IterationEndsWithJthOutput :
    validate (1088 : Word).toNat (512 : Word).toNat (256 : Word).toNat = .ok ∧
    (1 ≤ 1 ∧ 1 < 2 ^ 32) ∧ 1 ≤ 2 ^ 32 - 1 ∧ 2 ^ 32 - 1 < 2 ^ 32 := by decide

theorem witness_OutOfPhaseCommandsChangeNothing :
    (State.reset.phase ≠ .absorbing ∧ State.reset.phase ≠ .squeezing) ∧
    (squeezing cfg8).phase ≠ .absorbing ∧ (absorbing cfg8 []).phase ≠ .squeezing := by decide

/-- READ_REG with status OK, and a command with another status. -/
theorem witness_EveryCommandRespondsOnce :
    (∃ t, exec (.readReg 0) State.reset = .next t) ∧ ∃ t, exec .squeeze State.reset = .next t :=
  ⟨⟨_, rfl⟩, _, rfl⟩

theorem witness_OnlyResetClearsErrSeen : ∃ s t : State, (∀ e ∈ s.inbox, ∃ b, e = .byte b) ∧
    step s = .next t ∧ s.errSeen = true :=
  ⟨{ atInput [0x08, 0, 0, 0] [] with errSeen := true }, _, by simp [atInput], rfl, rfl⟩

/-- Each of the three phases is entered. -/
theorem witness_PhaseTransitions :
    nextWith (exec (.init 40 160 8) State.reset) (fun t => decide (t.phase = .absorbing)) = true ∧
    nextWith (exec (.init 8 8 8) (absorbing cfg8 [])) (fun t => decide (t.phase = .unconfigured)) = true ∧
    ∃ t, exec (.digest []) (absorbing cfg8 []) = .next t ∧ t.phase = .squeezing :=
  ⟨by decide, by decide, _, execDigest_absorbing (C := cfg8) rfl rfl _, rfl⟩

end Sys2Proof.Tests
end

section
/-! Rotation by any amount, the word sizes INIT accepts, and the range of the lanes the permutation and the absorption
of a block yield. -/

namespace Sys2Proof.Proofs

open Sys2Proof.Machine

/-! ### Rotation -/

theorem rotl_of_mod_eq_zero {w k : Nat} (v : Lane) (h : k % w = 0) : rotl w v k = v := by simp [rotl, h]

theorem rotl_of_mod_ne_zero {w k : Nat} (v : Lane) (h : k % w ≠ 0) :
    rotl w v k = (v <<< (k % w) ||| v >>> (w - k % w)) &&& laneMask w := by simp [rotl, h]

/-- The bits of a rotation by 0 < `s` < w before it is masked: those from `s` up come from the left shift, those below
`s` from the right shift, since `v` has no bit from `w` up. -/
theorem getLsbD_shiftLeft_or_ushiftRight {w s i : Nat} {v : Lane} (hw : w ≤ 64) (hv : v.toNat < 2 ^ w) (hs : s < w)
    (hi : i < w) : (v <<< s ||| v >>> (w - s)).getLsbD i = v.getLsbD ((i + (w - s)) % w) := by
  have hi64 : i < 64 := by omega
  simp only [BitVec.getLsbD_or, BitVec.getLsbD_shiftLeft, BitVec.getLsbD_ushiftRight]
  by_cases his : i < s
  · rw [Nat.mod_eq_of_lt (by omega), Nat.add_comm i]
    simp [his]
  · have hmod : (i + (w - s)) % w = i - s := by
      rw [show i + (w - s) = i - s + w by omega, Nat.add_mod_right, Nat.mod_eq_of_lt (by omega)]
    rw [hmod, getLsbD_of_toNat_lt hv (by omega : w ≤ w - s + i)]
    simp [his, hi64]

theorem rotl_toNat_lt {w : Nat} {v : Lane} (hv : v.toNat < 2 ^ w) (k : Nat) : (rotl w v k).toNat < 2 ^ w := by
  by_cases h : k % w = 0
  · rwa [rotl_of_mod_eq_zero v h]
  · rw [rotl_of_mod_ne_zero v h]
    exact toNat_and_laneMask_lt w _

/-- Settles O1: a multiple of `w` leaves `v` as it is, and any other amount moves each bit by one of the two shifts. -/
theorem rotationMovesBitsModuloWidth : Obligations.RotationMovesBitsModuloWidth := by
  intro w v k i hw hw64 hv
  have hs : k % w < w := Nat.mod_lt k hw
  rcases Nat.lt_or_ge i w with hi | hi
  · by_cases h : k % w = 0
    · simp [rotl_of_mod_eq_zero v h, h, Nat.mod_eq_of_lt hi, hi]
    · rw [rotl_of_mod_ne_zero v h, BitVec.getLsbD_and, getLsbD_shiftLeft_or_ushiftRight hw64 hv hs hi,
        laneMask_getLsbD w i hw64, Bool.and_comm]
  · simp [getLsbD_of_toNat_lt (rotl_toNat_lt hv k) hi, hi]

/-! ### Word sizes -/

/-- Settles O2: the checks make b / 25 a power of two that is a multiple of 8 and at most 64. -/
theorem acceptedWordSizes : Obligations.AcceptedWordSizes := by
  intro r c n h
  obtain ⟨⟨hr0, hc0, hn0, hr8, hc8⟩, h25, h64, hpow⟩ := validate_eq_ok.mp h
  have hb : 25 * ((r + c) / 25) = r + c := by omega
  refine ⟨hr8, hc8, hb, ?_⟩
  generalize (r + c) / 25 = w at *
  rw [← hb]
  rcases wordSize_cases (by omega) (by omega) h64 hpow with rfl | rfl | rfl | rfl <;> decide

/-! ### Lanes in range -/

theorem toNat_xor_lt {w : Nat} {u v : Lane} (hu : u.toNat < 2 ^ w) (hv : v.toNat < 2 ^ w) :
    (u ^^^ v).toNat < 2 ^ w := by
  rw [BitVec.toNat_xor]
  exact Nat.xor_lt_two_pow hu hv

theorem toNat_and_lt {w : Nat} (u : Lane) {v : Lane} (hv : v.toNat < 2 ^ w) : (u &&& v).toNat < 2 ^ w := by
  rw [BitVec.toNat_and]
  exact lt_of_le_of_lt Nat.and_le_right hv

theorem inRange_tabulate {w : Nat} {f : Fin 5 → Fin 5 → Lane} (h : ∀ x y, (f x y).toNat < 2 ^ w) :
    (Lanes.tabulate f).inRange w := by
  intro x y
  rw [lane_tabulate]
  exact h x y

/-- θ lane by lane (40_keccak_f_round.md R101). -/
theorem lane_theta (w : Nat) (A : Lanes) (x y : Fin 5) :
    (theta w A).lane x y = A.lane x y ^^^ (columnParity A (x - 1) ^^^ rotl w (columnParity A (x + 1)) 1) := by
  simp only [theta, lane_tabulate, Fin.getElem_fin, Vector.getElem_ofFn, Fin.eta]

section Round

variable {w : Nat} {A : Lanes} (hA : A.inRange w)
include hA

theorem columnParity_toNat_lt (x : Fin 5) : (columnParity A x).toNat < 2 ^ w :=
  toNat_xor_lt (toNat_xor_lt (toNat_xor_lt (toNat_xor_lt (hA x 0) (hA x 1)) (hA x 2)) (hA x 3)) (hA x 4)

theorem inRange_theta : (theta w A).inRange w := by
  intro x y
  rw [lane_theta]
  exact toNat_xor_lt (hA x y)
    (toNat_xor_lt (columnParity_toNat_lt hA (x - 1)) (rotl_toNat_lt (columnParity_toNat_lt hA (x + 1)) 1))

theorem inRange_rhoPi : (rhoPi w A).inRange w :=
  inRange_tabulate fun _ _ => rotl_toNat_lt (hA _ _) _

/-- The complement of χ may be any lane: the lane it is ∧-ed with is in range. -/
theorem inRange_chi : (chi w A).inRange w :=
  inRange_tabulate fun x y => toNat_xor_lt (hA x y) (toNat_and_lt _ (hA (x + 2) y))

theorem inRange_iota {rc : Lane} (hrc : rc.toNat < 2 ^ w) : (iota A rc).inRange w := by
  refine inRange_tabulate fun x y => ?_
  split
  · exact toNat_xor_lt (hA x y) hrc
  · exact hA x y

theorem inRange_keccakRound {rc : Lane} (hrc : rc.toNat < 2 ^ w) : (keccakRound w A rc).inRange w :=
  inRange_iota (inRange_chi (inRange_rhoPi (inRange_theta hA))) hrc

/-- The round constants are truncated to `w` bits, so every round keeps the range. -/
theorem inRange_keccakF : (keccakF w A).inRange w :=
  List.foldlRecOn _ _ hA fun _ hB _ _ => inRange_keccakRound hB (toNat_and_laneMask_lt w _)

end Round

/-- A lane of a byte sequence is read from at most w / 8 bytes. -/
theorem inRange_lanesOf {w : Nat} (h8 : 8 ∣ w) (Z : List Byte) : (lanesOf w Z).inRange w := by
  intro x y
  rw [lane_lanesOf, BitVec.toNat_ofNat]
  have hpow : 256 ^ (w / 8) = 2 ^ w := by rw [show 256 = 2 ^ 8 from rfl, ← pow_mul, Nat.mul_div_cancel' h8]
  calc _ ≤ leNat ((Z.drop ((x.val + 5 * y.val) * (w / 8))).take (w / 8)) := Nat.mod_le _ _
    _ < 256 ^ ((Z.drop ((x.val + 5 * y.val) * (w / 8))).take (w / 8)).length := leNat_lt _
    _ ≤ 256 ^ (w / 8) := Nat.pow_le_pow_right (by decide) (List.length_take_le _ _)
    _ = 2 ^ w := hpow

theorem inRange_absorbBlock {C : SpongeConfig} (hC : C.Valid) {A : Lanes} (hA : A.inRange C.w) (P : List Byte) :
    (absorbBlock C A P).inRange C.w := by
  obtain ⟨hw, _⟩ := hC.arith
  exact inRange_keccakF (inRange_xor hA (inRange_lanesOf (by omega) _))

/-- Settles O31: every step mapping of a round keeps the range, and the lanes of a block are in range. -/
theorem permutationKeepsLanesInRange : Obligations.PermutationKeepsLanesInRange :=
  ⟨fun _ _ _ _ hA => inRange_keccakF hA, fun _ _ P hC hA => inRange_absorbBlock hC hA P⟩

end Sys2Proof.Proofs
end

section
/-! The state between commands (10_state.md): reset and the STATUS register, what a command leaves of the configuration
and shows of the lanes, and the invariant of R27 along every step. -/

namespace Sys2Proof.Proofs

open Sys2Proof.Machine

/-! ### The invariant -/

/-- Without a configuration the sponge is empty, and only the status fields are free. -/
theorem inv_of_unconfigured {s : State} (hphase : s.phase = .unconfigured) (hcfg : s.cfg = none)
    (hlanes : s.lanes = Lanes.zero) (hbuf : s.buf = [])
    (hsticky : s.lastStatus ≠ .ok → s.errSeen = true) : s.Inv where
  unconfigured _ := ⟨hcfg, hbuf, fun x y => by rw [hlanes, lane_zero]⟩
  absorbing h := by simp [hphase] at h
  squeezing h := by simp [hphase] at h
  sticky := hsticky

theorem inv_of_absorbing {s : State} {C : SpongeConfig} (hphase : s.phase = .absorbing) (hcfg : s.cfg = some C)
    (hC : C.Valid) (hlanes : s.lanes.inRange C.w) (hbuf : s.buf.length < superBlock C)
    (hsticky : s.lastStatus ≠ .ok → s.errSeen = true) : s.Inv where
  unconfigured h := by simp [hphase] at h
  absorbing _ := ⟨C, hcfg, hC, hlanes, hbuf⟩
  squeezing h := by simp [hphase] at h
  sticky := hsticky

theorem inv_of_squeezing {s : State} {C : SpongeConfig} (hphase : s.phase = .squeezing) (hcfg : s.cfg = some C)
    (hC : C.Valid) (hlanes : s.lanes.inRange C.w) (hbuf : s.buf = [])
    (hsticky : s.lastStatus ≠ .ok → s.errSeen = true) : s.Inv where
  unconfigured h := by simp [hphase] at h
  absorbing h := by simp [hphase] at h
  squeezing _ := ⟨C, hcfg, hC, hlanes, hbuf⟩
  sticky := hsticky

section Inv

variable {s : State} (hs : s.Inv)
include hs

/-- The invariant does not speak of the streams, and of the status fields it says the sticky bit's line alone. -/
theorem inv_with_status {st : Status} {err : Bool} (hsticky : st ≠ .ok → err = true) (inbox : List InEvent)
    (outbox : List Byte) :
    { s with lastStatus := st, errSeen := err, inbox := inbox, outbox := outbox : State }.Inv :=
  ⟨hs.unconfigured, hs.absorbing, hs.squeezing, hsticky⟩

theorem inv_absorbing_config {C : SpongeConfig} (hphase : s.phase = .absorbing) (hcfg : s.cfg = some C) :
    C.Valid ∧ s.lanes.inRange C.w := by
  obtain ⟨C', hcfg', hC, hlanes, _⟩ := hs.absorbing hphase
  obtain rfl : C = C' := Option.some.inj (hcfg.symm.trans hcfg')
  exact ⟨hC, hlanes⟩

theorem inv_squeezing_config {C : SpongeConfig} (hphase : s.phase = .squeezing) (hcfg : s.cfg = some C) :
    C.Valid ∧ s.lanes.inRange C.w ∧ s.buf = [] := by
  obtain ⟨C', hcfg', hC, hlanes, hbuf⟩ := hs.squeezing hphase
  obtain rfl : C = C' := Option.some.inj (hcfg.symm.trans hcfg')
  exact ⟨hC, hlanes, hbuf⟩

end Inv

/-! ### Reset -/

/-- Settles O3: each field by its definition, and registers 0 to 5 one by one. -/
theorem resetValues : Obligations.ResetValues :=
  ⟨rfl, rfl, fun _ _ => lane_replicate 0 _ _, rfl, rfl, rfl, by decide, rfl⟩

theorem inv_resetEvent (s : State) : (resetEvent s).Inv :=
  inv_of_unconfigured rfl rfl zero_eq_replicate.symm rfl (by simp)

/-- Settles O4: the reset state is unconfigured, and its last status is OK. -/
theorem resetMeetsInvariant : Obligations.ResetMeetsInvariant := inv_resetEvent State.reset

/-! ### The STATUS register -/

theorem phase_code_lt (p : Phase) : p.code < 2 ^ 2 := by cases p <;> decide

theorem status_code_lt (st : Status) : st.code < 2 ^ 8 := by cases st <;> decide

/-- A number below 2^k and a multiple of 2^k share no bit. -/
theorem or_mul_two_pow_eq_add {a k : Nat} (h : a < 2 ^ k) (b : Nat) : a ||| b * 2 ^ k = a + 2 ^ k * b := by
  rw [Nat.or_comm, Nat.mul_comm, ← Nat.two_pow_add_eq_or_of_lt h, Nat.add_comm]

/-- The fields of STATUS as one number (10_state.md R29): no field reaches the next, so ∨ adds them up. -/
theorem statusRegister_toNat (s : State) :
    (statusRegister s).toNat = s.phase.code + 2 ^ 8 * s.lastStatus.code + 2 ^ 16 * s.errSeen.toNat := by
  have hp := phase_code_lt s.phase
  have hst := status_code_lt s.lastStatus
  have he := s.errSeen.toNat_lt
  simp (disch := omega) only [statusRegister, BitVec.toNat_or, BitVec.toNat_shiftLeft, BitVec.toNat_ofNat,
    Nat.shiftLeft_eq, Nat.mod_eq_of_lt, or_mul_two_pow_eq_add]

/-- A field of a word is read off the word as a number. -/
theorem extractLsb'_eq_of_toNat {v : Word} {start len : Nat} {f : BitVec len}
    (h : v.toNat / 2 ^ start % 2 ^ len = f.toNat) : v.extractLsb' start len = f := by
  apply BitVec.eq_of_toNat_eq
  rw [BitVec.extractLsb'_toNat, Nat.shiftRight_eq_div_pow, h]

/-- Settles O7: the fields are digits of the register as a number, and the codes are the tables' own. -/
theorem statusRegisterFields : Obligations.StatusRegisterFields := by
  refine ⟨fun s => ?_, by decide, by decide⟩
  have hp := phase_code_lt s.phase
  have hst := status_code_lt s.lastStatus
  have he := s.errSeen.toNat_lt
  refine ⟨extractLsb'_eq_of_toNat ?phase, extractLsb'_eq_of_toNat ?low, extractLsb'_eq_of_toNat ?lastStatus,
    extractLsb'_eq_of_toNat ?errSeen, extractLsb'_eq_of_toNat ?high⟩
  all_goals
    simp only [statusRegister_toNat, BitVec.toNat_ofNat, BitVec.toNat_ofBool, BitVec.ofNat_eq_ofNat]
    omega

/-! ### The configuration -/

/-- Settles O8: INIT apart, no line of what a command can do writes the configuration. -/
theorem onlyInitChangesConfiguration : Obligations.OnlyInitChangesConfiguration := by
  intro i s t hi h
  rcases exec_cases h with ⟨r, c, n, rfl, _⟩ | ⟨r, c, n, rfl, _⟩ | ⟨k, _, _, rfl⟩ | ⟨st, _, rfl⟩ |
    ⟨C, _, _, ⟨chunk, _, rfl⟩ | ⟨last, _, rfl⟩⟩ | ⟨C, _, _, ⟨_, rfl⟩ | ⟨times, m, _, rfl⟩⟩
  case inl | inr.inl => exact absurd rfl (hi r c n)
  all_goals rfl

/-! ### What is seen of the lanes -/

/-- No register shows a lane (10_state.md R22, R28). -/
theorem readRegister_with_lanes (k : Nat) (s : State) (A : Lanes) :
    readRegister k { s with lanes := A } = readRegister k s := rfl

/-- The phase check does not read the lanes: where a command's effect lets them reach the lanes alone, so does the
command. -/
theorem inPhase_with_lanes {p : Phase} {s t : State} {A : Lanes} (effect : SpongeConfig → State → State)
    (heffect : ∀ C, ∃ B, effect C { s with lanes := A } = { effect C s with lanes := B })
    (h : inPhase p s (fun C => .next (effect C s)) = .next t) :
    ∃ B, inPhase p { s with lanes := A } (fun C => .next (effect C { s with lanes := A })) =
      .next { t with lanes := B } := by
  rcases inPhase_next h with ⟨hp, rfl⟩ | ⟨hp, C, hC, ht⟩
  · exact ⟨A, inPhase_of_ne (s := { s with lanes := A }) hp _⟩
  · cases ht
    obtain ⟨B, hB⟩ := heffect C
    exact ⟨B, (inPhase_of_eq (s := { s with lanes := A }) hp hC _).trans (congrArg Host.Outcome.next hB)⟩

/-- A command that extracts no output lets the lanes reach the lanes alone. -/
theorem exec_with_lanes {i : Instr} {s t : State} (A : Lanes) (hdigest : ∀ bs, i ≠ .digest bs)
    (hsqueeze : i ≠ .squeeze) (h : exec i s = .next t) :
    ∃ B, exec i { s with lanes := A } = .next { t with lanes := B } := by
  cases i with
  | init r c n =>
    by_cases hv : validate r.toNat c.toNat n.toNat = .ok
    · rw [execInit_ok hv] at h ⊢
      cases h
      exact ⟨Lanes.zero, rfl⟩
    · rw [execInit_error hv] at h ⊢
      cases h
      exact ⟨Lanes.zero, rfl⟩
  | readReg k =>
    by_cases hk : k.toNat ≤ 6
    · rw [execReadReg_ok hk] at h ⊢
      cases h
      exact ⟨A, by rw [readRegister_with_lanes]⟩
    · rw [execReadReg_reserved (Nat.lt_of_not_le hk)] at h ⊢
      cases h
      exact ⟨A, rfl⟩
  | update chunk =>
    exact inPhase_with_lanes (fun C => updateEffect (superBlock C) C chunk) (fun _ => ⟨_, rfl⟩) h
  | simpleSqueeze times =>
    exact inPhase_with_lanes
      (fun C s => respond false .ok [] { s with lanes := keccakTimes C.w (zext32 times) s.lanes })
      (fun _ => ⟨_, rfl⟩) h
  | fastSqueeze times =>
    exact inPhase_with_lanes
      (fun C s => respond false .ok [] { s with lanes := keccakTimes C.w (zext32 times * digestBlocks C) s.lanes })
      (fun _ => ⟨_, rfl⟩) h
  | digest last => exact absurd rfl (hdigest last)
  | squeeze => exact absurd rfl hsqueeze

/-- Settles O9: with other lanes the next state is the same but for its lanes. -/
theorem lanesAreHiddenFromOtherCommands : Obligations.LanesAreHiddenFromOtherCommands := by
  intro i s t A hdigest hsqueeze h
  obtain ⟨B, hB⟩ := exec_with_lanes A hdigest hsqueeze h
  exact ⟨_, hB, rfl, rfl, rfl, rfl, rfl⟩

theorem outputStream_one (C : SpongeConfig) (A : Lanes) : outputStream C A 1 = outBlock C A := by
  simp [outputStream, streamBlock_eq, keccakTimes]

theorem digestBlocks_eq_one {C : SpongeConfig} (h0 : 0 < C.n) (hn : C.n ≤ C.r) : digestBlocks C = 1 :=
  Nat.div_eq_of_lt_le (by omega) (by omega)

/-- Settles O45: a digest of at most one block is cut from the output block, and that from the first rr bytes. -/
theorem capacityIsNeverOutput : Obligations.CapacityIsNeverOutput := by
  intro C A B hC h
  have hblock : outBlock C A = outBlock C B := h
  refine ⟨hblock, fun hn => ?_⟩
  obtain ⟨_, _, _, _, h0, _⟩ := hC.arith
  simp only [squeezeTail_eq hC, digestBlocks_eq_one h0 hn, outputStream_one, hblock]

/-! ### Every step keeps the invariant -/

section Range

variable {A : Lanes}

theorem inRange_keccakTimes {w : Nat} (hA : A.inRange w) (t : Nat) : (keccakTimes w t A).inRange w :=
  Function.Iterate.rec (Lanes.inRange w) hA (fun _ hB => inRange_keccakF hB) t

variable {C : SpongeConfig} (hC : C.Valid) (hA : A.inRange C.w)
include hC hA

theorem inRange_absorbBlocks (count : Nat) (M : List Byte) : (absorbBlocks C count A M).inRange C.w :=
  List.foldlRecOn _ _ hA fun _ hB _ _ => inRange_absorbBlock hC hB _

theorem inRange_squeezeTail : (squeezeTail C A).1.inRange C.w := by
  rw [squeezeTail_eq hC]
  exact inRange_keccakTimes hA _

end Range

@[simp] theorem updateEffect_lastStatus (sb : Nat) (C : SpongeConfig) (chunk : List Byte) (s : State) :
    (updateEffect sb C chunk s).lastStatus = .ok := rfl

theorem toNat_le_nMax (n : Word) : n.toNat ≤ Config.nMax := Nat.le_pred_of_lt n.isLt

/-- Every command keeps the invariant: INIT and DIGEST set up the phase they enter, UPDATE and the squeezes stay in
theirs, and an error that ends no computation writes status fields alone. -/
theorem inv_of_exec {i : Instr} {s t : State} (hs : s.Inv) (h : exec i s = .next t) : t.Inv := by
  rcases exec_cases h with ⟨r, c, n, _, hv, rfl⟩ | ⟨r, c, n, _, st, _, rfl⟩ | ⟨k, _, _, rfl⟩ |
    ⟨st, _, rfl⟩ | ⟨C, hcfg, hphase, hcmd⟩ | ⟨C, hcfg, hphase, hcmd⟩
  case inl =>
    have hC := deriveConfig_valid hv (toNat_le_nMax n)
    exact inv_of_absorbing rfl rfl hC (inRange_zero _) (superBlock_multiple hC).1 (by simp)
  case inr.inl => exact inv_of_unconfigured rfl rfl rfl rfl fun _ => rfl
  case inr.inr.inl => exact inv_with_status hs hs.sticky _ _
  case inr.inr.inr.inl => exact inv_with_status hs (fun _ => rfl) _ _
  case inr.inr.inr.inr.inl =>
    obtain ⟨hC, hlanes⟩ := inv_absorbing_config hs hphase hcfg
    rcases hcmd with ⟨chunk, _, rfl⟩ | ⟨last, _, rfl⟩
    · exact inv_of_absorbing hphase hcfg hC (inRange_absorbBlocks hC hlanes _ _)
        (updateEffect_buf_length (superBlock_multiple hC).1 C chunk s) (by simp)
    · exact inv_of_squeezing rfl hcfg hC (inRange_squeezeTail hC (inRange_absorbBlocks hC hlanes _ _)) rfl (by simp)
  case inr.inr.inr.inr.inr =>
    obtain ⟨hC, hlanes, hbuf⟩ := inv_squeezing_config hs hphase hcfg
    rcases hcmd with ⟨_, rfl⟩ | ⟨times, m, _, rfl⟩
    · exact inv_of_squeezing hphase hcfg hC (inRange_squeezeTail hC (inRange_keccakF hlanes)) hbuf (by simp)
    · exact inv_of_squeezing hphase hcfg hC (inRange_keccakTimes hlanes m) hbuf (by simp)

/-- Settles O5: a step is a command, an illegal frame, a reset or a wait, and each keeps the invariant. -/
theorem stepKeepsInvariant : Obligations.StepKeepsInvariant := by
  intro s t hs h
  rcases step_cases h with ⟨i, later, _, hexec⟩ | ⟨later, _, rfl⟩ | ⟨later, _, rfl⟩ | ⟨_, rfl⟩
  · exact inv_of_exec (inv_with_status hs hs.sticky later s.outbox) hexec
  · rw [raise_keeps _ _ (.inl rfl)]
    exact inv_with_status hs (fun _ => rfl) later _
  · exact inv_resetEvent _
  · exact hs

end Sys2Proof.Proofs
end

section
/-! The two views of the state, as lanes and as bytes (20_memory.md R53 to R55), and the step on the frame of a command
with input behind it (R57, R58). -/

namespace Sys2Proof.Proofs

open Sys2Proof.Machine

/-! ### Lanes and bytes -/

theorem dvd_and_le_of_laneWidth : ∀ w ∈ [8, 16, 32, 64], 8 ∣ w ∧ w ≤ 64 := by decide

theorem pow_256_div_8 {w : Nat} (h8 : 8 ∣ w) : 256 ^ (w / 8) = 2 ^ w := by
  rw [show 256 = 2 ^ 8 from rfl, ← pow_mul, Nat.mul_div_cancel' h8]

theorem length_block {Z : List Byte} {m n k : Nat} (hZ : Z.length = n * m) (hk : k < n) :
    ((Z.drop (k * m)).take m).length = m := by
  have hle : (k + 1) * m ≤ n * m := Nat.mul_le_mul_right m hk
  rw [Nat.succ_mul] at hle
  rw [List.length_take, List.length_drop]
  omega

/-- The bytes of a lane, read as a number, are the lane. -/
theorem lanesOf_bytesOf {w : Nat} (h8 : 8 ∣ w) {A : Lanes} (hA : A.inRange w) : lanesOf w (bytesOf w A) = A := by
  apply Lanes.ext_lane
  intro x y
  rw [lane_lanesOf, bytesOf_block, leNat_leBytes, pow_256_div_8 h8, Nat.mod_eq_of_lt (hA x y), BitVec.ofNat_toNat,
    BitVec.setWidth_eq]

/-- A lane of at most 64 bits holds its block as a number, with no digit lost. -/
theorem lanesOf_toNat {w : Nat} (h64 : w ≤ 64) (Z : List Byte) (x y : Fin 5) :
    ((lanesOf w Z).lane x y).toNat = leNat ((Z.drop ((x.val + 5 * y.val) * (w / 8))).take (w / 8)) := by
  rw [lane_lanesOf, BitVec.toNat_ofNat]
  apply Nat.mod_eq_of_lt
  calc _ < 256 ^ ((Z.drop ((x.val + 5 * y.val) * (w / 8))).take (w / 8)).length := leNat_lt _
    _ ≤ 256 ^ 8 := Nat.pow_le_pow_right (by decide) (by rw [List.length_take]; omega)
    _ = 2 ^ 64 := by decide

/-- Block k of a state-sized sequence is read back from its lane (k mod 5, k div 5). -/
theorem leBytes_lane_lanesOf {w k : Nat} (h64 : w ≤ 64) {Z : List Byte} (hZ : Z.length = 25 * (w / 8)) (hk : k < 25) :
    leBytes (w / 8) ((lanesOf w Z).lane (Fin.ofNat 5 k) (Fin.ofNat 5 (k / 5))).toNat =
      (Z.drop (k * (w / 8))).take (w / 8) := by
  have hindex : (Fin.ofNat 5 k).val + 5 * (Fin.ofNat 5 (k / 5)).val = k := by
    simp only [Fin.val_ofNat]
    omega
  rw [lanesOf_toNat h64, hindex]
  simpa only [length_block hZ hk] using leBytes_leNat ((Z.drop (k * (w / 8))).take (w / 8))

theorem bytesOf_lanesOf {w : Nat} (h64 : w ≤ 64) {Z : List Byte} (hZ : Z.length = 25 * (w / 8)) :
    bytesOf w (lanesOf w Z) = Z :=
  calc bytesOf w (lanesOf w Z)
    _ = (List.range 25).flatMap fun k => (Z.drop (k * (w / 8))).take (w / 8) :=
        List.flatMap_congr fun _ hk => leBytes_lane_lanesOf h64 hZ (List.mem_range.mp hk)
    _ = Z := flatMap_range_blocks Z _ _ hZ

/-- Settles O10: each view is cut into 25 blocks, and a block and its lane are one number. -/
theorem lanesAndBytesAreInverse : Obligations.LanesAndBytesAreInverse := by
  intro w hw
  obtain ⟨h8, h64⟩ := dvd_and_le_of_laneWidth w hw
  exact ⟨fun A hA => ⟨bytesOf_length w A, lanesOf_bytesOf h8 hA⟩,
    fun Z hZ => ⟨inRange_lanesOf h8 Z, bytesOf_lanesOf h64 hZ⟩⟩

/-- The bytes of a little-endian number are its base-256 digits. -/
theorem getElem?_eq_digit_leNat {bs : List Byte} {j : Nat} (hj : j < bs.length) :
    bs[j]? = some (BitVec.ofNat 8 (leNat bs / 256 ^ j)) := by
  induction bs generalizing j with
  | nil => simp at hj
  | cons b bs ih =>
    have hb := b.isLt
    cases j with
    | zero =>
      refine congrArg some (BitVec.eq_of_toNat_eq ?_)
      simp only [leNat, BitVec.toNat_ofNat]
      omega
    | succ j =>
      have htail : (b.toNat + 256 * leNat bs) / 256 = leNat bs := by omega
      rw [List.getElem?_cons_succ, ih (Nat.lt_of_succ_lt_succ hj), leNat, pow_succ', ← Nat.div_div_eq_div_mul, htail]

/-- Settles O11: byte j of a lane is digit j of the number its block holds. -/
theorem bytesGoToLanesLittleEndian : Obligations.BytesGoToLanesLittleEndian := by
  intro w hw Z hZ x y j hj
  obtain ⟨_, h64⟩ := dvd_and_le_of_laneWidth w hw
  have hlen := length_block hZ (by omega : x.val + 5 * y.val < 25)
  rw [← List.getElem?_drop, ← List.getElem?_take_of_lt hj, getElem?_eq_digit_leNat (hlen.symm ▸ hj),
    BitVec.extractLsb', lanesOf_toNat h64, Nat.shiftRight_eq_div_pow, pow_mul]
  rfl

/-! ### Absorbing a block -/

/-- A block padded with zeros ⊕es its own length of bytes and leaves the others. -/
theorem zipWith_xor_append_zeros {Z P : List Byte} {k : Nat} (h : Z.length = P.length + k) :
    List.zipWith (· ^^^ ·) Z (P ++ zeros k) =
      List.zipWith (· ^^^ ·) (Z.take P.length) P ++ Z.drop P.length := by
  have hdrop : (Z.drop P.length).length = k := by rw [List.length_drop]; omega
  conv_lhs => rw [← List.take_append_drop P.length Z]
  rw [List.zipWith_append (by rw [List.length_take]; omega), ← hdrop, zipWith_xor_zeros]

/-- Settles O12: the block is ⊕ed into the bytes, since ⊕ of bytes is ⊕ of their lanes. -/
theorem absorbTouchesOnlyTheRateBytes : Obligations.AbsorbTouchesOnlyTheRateBytes := by
  intro C A P hC hA hP
  obtain ⟨hw, _, _, _, _, hrr, hb⟩ := hC.arith
  have hlen : (bytesOf C.w A).length = P.length + (C.b / 8 - C.rr) := by
    rw [bytesOf_length]
    omega
  have hxor := zipWith_xor_append_zeros hlen
  rw [hP] at hxor
  rw [absorbBlock, ← hxor, lanesOf_zipWith_xor _ _ _ (by simp [hlen]), lanesOf_bytesOf (by omega) hA]

/-! ### The step on a frame with input behind it -/

/-- What the decoder reads when `more` arrives behind the bytes it has read. -/
def withMore (more : List Byte) : Decoded → Decoded
  | .frame i rest => .frame i (rest ++ more)
  | .illegal why rest => .illegal why (rest ++ more)
  | .incomplete => .incomplete

/-- A reader that, once it no longer waits, has read what it has read whatever follows (30_encoding.md R77). -/
def ReadsFront (read : List Byte → Decoded) : Prop :=
  ∀ bs more, read bs ≠ .incomplete → read (bs ++ more) = withMore more (read bs)

theorem readsFront_withArg {next : Word → List Byte → Decoded} (h : ∀ v, ReadsFront (next v)) :
    ReadsFront (withArg · next) := by
  intro bs more hbs
  rcases withArg_cases (rfl : withArg bs next = _) with ⟨hwait, _⟩ | ⟨v, rest, rfl, _⟩
  · exact absurd hwait hbs
  · simp only [List.append_assoc, withArg_wordBytes] at hbs ⊢
    exact h v rest more hbs

theorem readsFront_withPayload (command : List Byte → Instr) : ReadsFront (withPayload · command) := by
  refine readsFront_withArg fun len rest more h => ?_
  by_cases hlen : rest.length < len.toNat
  · exact absurd (if_pos hlen) h
  · have hle : len.toNat ≤ rest.length := Nat.le_of_not_lt hlen
    have hmore : ¬ (rest ++ more).length < len.toNat := by rw [List.length_append]; omega
    rw [if_neg hlen, if_neg hmore, List.take_append_of_le_length hle, List.drop_append_of_le_length hle]
    rfl

theorem readsFront_decodeCommand (h : Word) : ReadsFront (decodeCommand h) := by
  unfold decodeCommand
  split
  · exact fun _ _ _ => rfl
  · split
    · exact readsFront_withArg fun r => readsFront_withArg fun c => readsFront_withArg fun n _ _ _ => rfl
    · exact readsFront_withPayload _
    · exact readsFront_withPayload _
    · exact fun _ _ _ => rfl
    · exact readsFront_withArg fun _ _ _ _ => rfl
    · exact readsFront_withArg fun _ _ _ _ => rfl
    · exact readsFront_withArg fun _ _ _ _ => rfl
    · exact fun _ _ _ => rfl

theorem readsFront_decode : ReadsFront decode := readsFront_withArg readsFront_decodeCommand

/-- The fetch of a whole frame leaves what stands behind it, unless a reset abandons the command. -/
theorem fetch_frame {bs : List Byte} {i : Instr} {later : List InEvent} (h : decode bs = .frame i [])
    (hlater : ∀ (unread : List Byte) (after : List InEvent),
      later ≠ unread.map .byte ++ .resetMidCommand unread.length :: after) :
    fetch (bs.map .byte ++ later) = .run i later := by
  have hdecode : decode (bs ++ (splitBytes later).1) = .frame i (splitBytes later).1 := by
    rw [readsFront_decode _ _ (by simp [h]), h]
    rfl
  simp only [fetch, splitBytes_bytes, hdecode, abandoned_eq_none hlater, splitBytes_join]

/-- Settles O19: the fetch takes the frame alone off the input. -/
theorem stepRunsDecodedCommand : Obligations.StepRunsDecodedCommand := by
  intro s i bs later hdecode hinbox hlater
  rw [step, hinbox, fetch_frame hdecode hlater]

end Sys2Proof.Proofs
end

section
/-! The frame encoding (30_encoding.md R70 to R77): what the decoder makes of a command's frame, of a stream that begins
with another header, and of a stream that ends too early; and the response every command gives (R78). -/

namespace Sys2Proof.Proofs

open Sys2Proof.Machine

/-! ### Decoding inverts encoding -/

/-- Settles O13: the decoder takes the branch of the command's own header, which reads the body back. -/
theorem decodeInvertsEncode : Obligations.DecodeInvertsEncode := by
  intro i rest hi
  rw [encode, List.append_assoc, decode_wordBytes, decodeCommand_headerWord]
  cases i with
  | init r c n => simp only [frameBody, List.append_assoc, withArg_wordBytes]
  | update chunk | digest chunk =>
    have hlen : chunk.length < 2 ^ 32 := Nat.lt_of_le_of_lt (of_decide_eq_true hi) (by decide)
    simp only [frameBody, List.append_assoc, withPayload_append _ _ _ hlen]
  | squeeze => rfl
  | simpleSqueeze v | fastSqueeze v | readReg v => exact withArg_wordBytes v rest _

/-! ### A command is read only from its frame -/

/-- A reader of what follows the bytes `front` that waits, or reads a command whose frame is `front` and what it took. -/
def ReadsCommand (front : List Byte) (read : List Byte → Decoded) : Prop :=
  ∀ bs, read bs = .incomplete ∨
    ∃ i rest, read bs = .frame i rest ∧ i.wellFormed = true ∧ front ++ bs = encode i ++ rest

theorem readsCommand_frame {i : Instr} {front : List Byte} (hi : i.wellFormed = true) (hfront : front = encode i) :
    ReadsCommand front (.frame i) :=
  fun bs => .inr ⟨i, bs, rfl, hi, hfront ▸ rfl⟩

theorem readsCommand_withArg {front : List Byte} {next : Word → List Byte → Decoded}
    (h : ∀ v, ReadsCommand (front ++ wordBytes v) (next v)) : ReadsCommand front (withArg · next) := by
  intro bs
  rcases withArg_cases (rfl : withArg bs next = _) with ⟨hwait, _⟩ | ⟨v, rest, rfl, _⟩
  · exact .inl hwait
  · simpa only [withArg_wordBytes, List.append_assoc] using h v rest

theorem readsCommand_withPayload {front : List Byte} {command : List Byte → Instr}
    (hwf : ∀ p, (command p).wellFormed = decide (p.length ≤ Config.lenMax))
    (hencode : ∀ p, encode (command p) = front ++ (leBytes 4 p.length ++ p)) :
    ReadsCommand front (withPayload · command) := by
  intro bs
  rcases withPayload_cases (rfl : withPayload bs command = _) with hwait | ⟨p, rest, hlen, rfl, hframe⟩
  · exact .inl hwait
  · have hp : p.length ≤ Config.lenMax := Nat.le_pred_of_lt hlen
    exact .inr ⟨command p, rest, hframe, by rw [hwf, decide_eq_true hp], by simp only [hencode, List.append_assoc]⟩

/-- Behind a legal header the decoder waits or reads a command, and from its frame alone (30_encoding.md R72, R73). -/
theorem readsCommand_decodeCommand (i : Instr) :
    ReadsCommand (wordBytes (headerWord i)) (decodeCommand (headerWord i)) := by
  rw [show decodeCommand (headerWord i) = _ from funext (decodeCommand_headerWord i)]
  cases i with
  | init _ _ _ =>
    exact readsCommand_withArg fun r => readsCommand_withArg fun c => readsCommand_withArg fun n =>
      readsCommand_frame rfl rfl
  | update _ | digest _ => exact readsCommand_withPayload (fun _ => rfl) fun _ => rfl
  | squeeze => exact readsCommand_frame rfl rfl
  | simpleSqueeze _ | fastSqueeze _ | readReg _ => exact readsCommand_withArg fun v => readsCommand_frame rfl rfl

/-- The header words 1 to 7 are the commands' own (30_encoding.md R72). -/
theorem eq_headerWord {h : Word} (hpos : 0 < h.toNat) (hle : h.toNat ≤ 7) : ∃ i, h = headerWord i := by
  have hcases : h.toNat = 1 ∨ h.toNat = 2 ∨ h.toNat = 3 ∨ h.toNat = 4 ∨ h.toNat = 5 ∨ h.toNat = 6 ∨ h.toNat = 7 := by
    omega
  rcases hcases with e | e | e | e | e | e | e
  · exact ⟨.init 0 0 0, BitVec.eq_of_toNat_eq e⟩
  · exact ⟨.update [], BitVec.eq_of_toNat_eq e⟩
  · exact ⟨.digest [], BitVec.eq_of_toNat_eq e⟩
  · exact ⟨.squeeze, BitVec.eq_of_toNat_eq e⟩
  · exact ⟨.simpleSqueeze 0, BitVec.eq_of_toNat_eq e⟩
  · exact ⟨.fastSqueeze 0, BitVec.eq_of_toNat_eq e⟩
  · exact ⟨.readReg 0, BitVec.eq_of_toNat_eq e⟩

/-- A word that is none of 1 to 7 has a reserved bit set or an unassigned opcode (30_encoding.md R76). -/
theorem decodeCommand_illegal {h : Word} (hh : h.toNat = 0 ∨ 7 < h.toNat) (rest : List Byte) :
    ∃ why, decodeCommand h rest = .illegal why rest := by
  by_cases hr : headerRsvd h = 0
  · have hopc : h.toNat = (headerOpc h).toNat := by
      have hlt := (headerOpc h).isLt
      conv_lhs => rw [eq_headerOpc hr, BitVec.toNat_ofNat, Nat.mod_eq_of_lt (by omega)]
    rw [hopc] at hh
    simp only [decodeCommand, hr, ne_eq, not_true_eq_false, if_false]
    split
    case h_8 => exact ⟨_, rfl⟩
    all_goals omega
  · exact ⟨_, if_pos hr⟩

/-- A header word is a command's own, or its frame is illegal. -/
theorem header_cases (h : Word) :
    (∃ i, h = headerWord i) ∨ ∀ rest, ∃ why, decodeCommand h rest = .illegal why rest := by
  by_cases hh : h.toNat = 0 ∨ 7 < h.toNat
  · exact .inr (decodeCommand_illegal hh)
  · exact .inl (eq_headerWord (by omega) (by omega))

/-- Settles O14: the stream begins with a command's header, and behind it the decoder reads the rest of a frame. -/
theorem decodedFrameIsItsEncoding : Obligations.DecodedFrameIsItsEncoding := by
  intro i bs rest hd
  rcases withArg_cases hd with ⟨hwait, _⟩ | ⟨h, tail, rfl, hc⟩
  · cases hwait
  rcases header_cases h with ⟨j, rfl⟩ | hill
  · rcases readsCommand_decodeCommand j tail with hwait | ⟨i', rest', hframe, hwf, hbs⟩
    · cases hc.symm.trans hwait
    · cases hc.symm.trans hframe
      exact ⟨hwf, hbs⟩
  · obtain ⟨why, hw⟩ := hill tail
    cases hc.symm.trans hw

/-- Settles O15: behind a header word 1 to 7, a command's own, the decoder waits or reads a command. -/
theorem illegalHeaders : Obligations.IllegalHeaders := by
  intro h rest
  rw [decode_wordBytes]
  refine ⟨fun ⟨why, hill⟩ => ?_, fun hh => decodeCommand_illegal hh rest⟩
  by_contra hlegal
  obtain ⟨i, rfl⟩ := eq_headerWord (h := h) (by omega) (by omega)
  rcases readsCommand_decodeCommand i rest with hwait | ⟨_, _, hframe, _⟩
  · cases hill.symm.trans hwait
  · cases hill.symm.trans hframe

/-! ### Waiting for a whole frame -/

theorem decode_of_length_lt {bs : List Byte} (h : bs.length < 4) : decode bs = .incomplete := by
  rw [decode, withArg, takeWord_eq_none.mpr h]

/-- No frame of a command begins another: had the decoder read a part of a frame, it would leave unread bytes when it
reads the whole. -/
theorem decode_incomplete_of_missing {i : Instr} (hi : i.wellFormed = true) {front missing : List Byte}
    (hsplit : encode i = front ++ missing) (hmissing : missing ≠ []) : decode front = .incomplete := by
  by_contra hread
  have hwhole : decode (front ++ missing) = .frame i [] := by
    rw [← hsplit, ← List.append_nil (encode i), decodeInvertsEncode i [] hi]
  rw [readsFront_decode front missing hread] at hwhole
  cases hd : decode front with
  | frame j rest =>
    rw [hd] at hwhole
    injection hwhole with _ hrest
    exact hmissing (List.append_eq_nil_iff.mp hrest).2
  | illegal why rest => rw [hd] at hwhole; cases hwhole
  | incomplete => exact hread hd

/-- Settles O16: a shorter stream lacks the header, and a part of a frame lacks bytes the whole frame uses. -/
theorem decoderWaitsForTheWholeFrame : Obligations.DecoderWaitsForTheWholeFrame :=
  ⟨fun _ => decode_of_length_lt, fun i k hi hk =>
    decode_incomplete_of_missing hi (List.take_append_drop k (encode i)).symm (by simpa using hk)⟩

/-- Settles O21: without a whole frame and with no reset behind the bytes, the fetch waits. -/
theorem stepWaitsForBytes : Obligations.StepWaitsForBytes := by
  intro s bs hdecode hinbox
  have hsplit : splitBytes s.inbox = (bs, []) := by
    rw [hinbox, ← List.append_nil (bs.map _), splitBytes_bytes]
    simp [splitBytes]
  simp only [step, fetch, hsplit, hdecode]

/-! ### Lengths and examples -/

theorem encode_length (i : Instr) : (encode i).length = 4 + (frameBody i).length := by
  rw [encode, List.length_append, wordBytes_length]

/-- Settles O17: a frame is its header's four bytes and its body. -/
theorem frameLengths : Obligations.FrameLengths := by
  simp [Obligations.FrameLengths, encode_length, frameBody, ← Nat.add_assoc]

/-- Settles O18: each frame is its command's encoding. -/
theorem specFramesDecode : Obligations.SpecFramesDecode :=
  ⟨decodeInvertsEncode (.init 1088 512 256) [] rfl, decodeInvertsEncode (.update [0x61, 0x62]) [] rfl,
    decodeInvertsEncode (.digest [0x61, 0x62, 0x63]) [] rfl, decodeInvertsEncode .squeeze [] rfl,
    decodeInvertsEncode (.simpleSqueeze 1) [] rfl, decodeInvertsEncode (.fastSqueeze 1) [] rfl,
    decodeInvertsEncode (.readReg 0) [] rfl⟩

/-! ### The response of a command -/

theorem responseBytes_append (outbox : List Byte) (st : Status) (data : List Byte) :
    outbox ++ responseBytes st data = outbox ++ leBytes 4 st.code ++ leBytes 4 data.length ++ data := by
  simp only [responseBytes, List.append_assoc]

/-- Settles O55: each line of what a command can do appends one response and sets the status fields by it. -/
theorem everyCommandRespondsOnce : Obligations.EveryCommandRespondsOnce := by
  intro i s t h
  simp only [← responseBytes_append]
  rcases exec_cases h with ⟨r, c, n, rfl, _, rfl⟩ | ⟨r, c, n, rfl, st, hst, rfl⟩ | ⟨k, rfl, _, rfl⟩ |
    ⟨st, hst, rfl⟩ | ⟨C, _, _, ⟨chunk, rfl, rfl⟩ | ⟨last, rfl, rfl⟩⟩ |
    ⟨C, _, _, ⟨rfl, rfl⟩ | ⟨times, m, hi, rfl⟩⟩
  · exact ⟨.ok, [], rfl, by simp⟩
  · have hne : st ≠ .ok := by rcases hst with rfl | rfl <;> decide
    exact ⟨st, [], rfl, by simp [hne]⟩
  · exact ⟨.ok, wordBytes (readRegister k.toNat s), rfl, by simp⟩
  · have hne : st ≠ .ok := by rcases hst with ⟨rfl, _⟩ | ⟨rfl, _⟩ <;> decide
    exact ⟨st, [], rfl, by simp [hne]⟩
  · exact ⟨.ok, [], rfl, by simp [updateEffect]⟩
  · exact ⟨.ok, _, rfl, by simp⟩
  · exact ⟨.ok, _, rfl, by simp⟩
  · have hread : ∀ k, i ≠ .readReg k := by rcases hi with rfl | rfl <;> simp
    exact ⟨.ok, [], rfl, by simp [hread]⟩

end Sys2Proof.Proofs
end

section
/-! The step mappings of one round lane by lane, and the tables of rotation offsets and round constants. -/

namespace Sys2Proof.Proofs

open Sys2Proof.Machine

/-! ### The step mappings -/

/-- Settles O24: the sum of R101 is θ's own, with C the column parities. -/
theorem thetaLanes : Obligations.ThetaLanes :=
  fun w A x y => lane_theta w A x y

/-- π moves lane (x, y) to (y, 2x + 3y); its inverse, by which `rhoPi` finds the lane it reads, leads back to x. -/
theorem piSource_piTarget (x y : Fin 5) : (2 * x + 3 * y - 3 * y) * 3 = x := by
  have hsix : (2 * 3 : Fin 5) = 1 := rfl
  rw [add_sub_cancel_right, mul_right_comm, hsix, one_mul]

theorem piTarget_piSource (u v : Fin 5) : 2 * ((v - 3 * u) * 3) + 3 * u = v := by
  have hsix : (2 * 3 : Fin 5) = 1 := rfl
  rw [mul_left_comm, hsix, mul_one, sub_add_cancel]

theorem piTarget_bijective : Function.Bijective fun p : Fin 5 × Fin 5 => (p.2, 2 * p.1 + 3 * p.2) :=
  Function.bijective_iff_has_inverse.mpr ⟨fun q => ((q.2 - 3 * q.1) * 3, q.1),
    fun p => Prod.ext (piSource_piTarget p.1 p.2) rfl, fun q => Prod.ext rfl (piTarget_piSource q.1 q.2)⟩

/-- ρ and π in the direction the model writes them, by target lane (40_keccak_f_round.md R102). -/
theorem lane_rhoPi (w : Nat) (A : Lanes) (u v : Fin 5) :
    (rhoPi w A).lane u v = rotl w (A.lane ((v - 3 * u) * 3) u) (rotationOffset ((v - 3 * u) * 3) u) := by
  rw [rhoPi, lane_tabulate]

/-- Settles O25: the lane that (y, 2x + 3y) is read from is (x, y), the inverse of π applied to its image. -/
theorem rhoPiMovesLanes : Obligations.RhoPiMovesLanes :=
  ⟨fun w A x y => by rw [lane_rhoPi, piSource_piTarget], piTarget_bijective⟩

/-- χ lane by lane (40_keccak_f_round.md R103). -/
theorem lane_chi (w : Nat) (B : Lanes) (x y : Fin 5) :
    (chi w B).lane x y = B.lane x y ^^^ ((B.lane (x + 1) y ^^^ laneMask w) &&& B.lane (x + 2) y) := by
  rw [chi, lane_tabulate]

/-- Settles O26: below `w` the mask's bit is 1 and ⊕ with it is the complement; from `w` up the lane has no bit, since
χ keeps the range. -/
theorem chiLanes : Obligations.ChiLanes := by
  intro w B x y i hw hB
  rcases Nat.lt_or_ge i w with hi | hi
  · simp [lane_chi, laneMask_getLsbD w i hw, hi]
  · simp [getLsbD_of_toNat_lt (inRange_chi hB x y) hi, hi]

/-- ι lane by lane (40_keccak_f_round.md R104). -/
theorem lane_iota (A : Lanes) (rc : Lane) (x y : Fin 5) :
    (iota A rc).lane x y = if x = 0 ∧ y = 0 then A.lane x y ^^^ rc else A.lane x y := by
  rw [iota, lane_tabulate]

/-- Settles O27: ι's condition singles out lane (0, 0). -/
theorem iotaLanes : Obligations.IotaLanes := by
  intro A rc x y
  constructor
  · rw [lane_iota, if_pos ⟨rfl, rfl⟩]
  · intro hxy
    rw [lane_iota, if_neg fun ⟨hx, hy⟩ => hxy (Prod.ext hx hy)]

/-! ### The tables -/

/-- Settles O28: the 24 steps of the walk, one by one. -/
theorem rotationOffsetsFollowTheRecurrence : Obligations.RotationOffsetsFollowTheRecurrence :=
  ⟨rfl, by decide⟩

/-- Settles O29: the 64 bits of each of the 24 constants, one by one. -/
theorem roundConstantsFollowTheLfsr : Obligations.RoundConstantsFollowTheLfsr :=
  ⟨rfl, by decide +kernel⟩

end Sys2Proof.Proofs
end

section
/-! The permutation round by round: the lanes between the rounds of keccakF. -/

namespace Sys2Proof.Proofs

open Sys2Proof.Machine

/-- The lanes after rounds 0 to `count` − 1 (41_keccak_permutation.md R131). -/
def keccakRounds (w : Nat) (A : Lanes) (count : Nat) : Lanes :=
  (List.range count).foldl (fun A i => keccakRound w A (roundConstant w i)) A

theorem keccakRounds_zero (w : Nat) (A : Lanes) : keccakRounds w A 0 = A := rfl

/-- Round `i` comes after the rounds below it, with its own constant (40_keccak_f_round.md R107, R108). -/
theorem keccakRounds_succ (w : Nat) (A : Lanes) (i : Nat) :
    keccakRounds w A (i + 1) = keccakRound w (keccakRounds w A i) (roundConstant w i) := by
  simp only [keccakRounds, List.range_succ, List.foldl_append, List.foldl_cons, List.foldl_nil]

theorem keccakF_eq_keccakRounds (w : Nat) (A : Lanes) : keccakF w A = keccakRounds w A (roundCount w) := rfl

/-- Settles O30: the sequence is the lanes between the rounds. -/
theorem keccakIsItsRoundsInOrder : Obligations.KeccakIsItsRoundsInOrder :=
  fun w A => ⟨keccakRounds w A, keccakRounds_zero w A, fun i _ => keccakRounds_succ w A i, keccakF_eq_keccakRounds w A⟩

end Sys2Proof.Proofs
end

section
/-! Padding (42_pad10star1_engine.md): its two branches on bytes, and the padding as a bit string. -/

namespace Sys2Proof.Proofs

open Sys2Proof.Machine

/-! ### The branches -/

/-- A bitrate in whole bytes. -/
theorem exists_rateBytes {r : Nat} (h8 : 8 ≤ r) (hr : r % 8 = 0) : ∃ q, 0 < q ∧ r = 8 * q :=
  ⟨r / 8, by omega, by omega⟩

section Branches

variable {M : List Byte} {q : Nat} (hq : 0 < q)
include hq

theorem pad_of_last_byte (h : M.length % q = q - 1) : pad M (8 * q) = M ++ [0x81] := by
  rw [pad, singleByteBranch_iff hq, decide_eq_true h]
  rfl

/-- The zeros fill what the two marker bytes leave of the message's last block. -/
theorem pad_of_not_last_byte (h : M.length % q ≠ q - 1) :
    pad M (8 * q) = M ++ [0x01] ++ zeros (q - M.length % q - 2) ++ [0x80] := by
  have hT : q * (M.length / q + 1) - M.length - 2 = q - M.length % q - 2 := by
    have := Nat.div_add_mod M.length q
    rw [Nat.mul_add, Nat.mul_one]
    omega
  simp only [pad, singleByteBranch_iff hq, decide_eq_false h, Nat.mul_div_cancel_left q (by decide : 0 < 8),
    blocks_of_pad hq, hT]
  rfl

theorem take_pad : (pad M (8 * q)).take M.length = M := by
  by_cases h : M.length % q = q - 1
  · rw [pad_of_last_byte hq h, List.take_left]
  · rw [pad_of_not_last_byte hq h, List.append_assoc, List.append_assoc, List.take_left]

end Branches

/-- Settles O32: r is 8 times its bytes, and each branch is the padding's own. -/
theorem paddingBranches : Obligations.PaddingBranches := by
  intro M r h8 hr
  obtain ⟨q, hq, rfl⟩ := exists_rateBytes h8 hr
  rw [Nat.mul_div_cancel_left q (by decide)]
  exact ⟨pad_of_last_byte hq, pad_of_not_last_byte hq⟩

/-! ### Padding as a bit string -/

theorem bitString_append (M N : List Byte) : bitString (M ++ N) = bitString M ++ bitString N :=
  List.flatMap_append

theorem bitString_zeros (k : Nat) : bitString (zeros k) = List.replicate (8 * k) false := by
  induction k with
  | zero => rfl
  | succ k ih =>
    have hsucc : zeros (k + 1) = [0x00] ++ zeros k := rfl
    have hzero : bitString [0x00] = List.replicate 8 false := by decide
    rw [hsucc, bitString_append, ih, hzero, List.replicate_append_replicate, Nat.mul_succ, Nat.add_comm]

/-- The start marker's bit comes first in its byte and the end marker's last (42_pad10star1_engine.md R152), so what
stands between the two is zeros in both branches: the padding's bits up to the next multiple of r, but two. -/
theorem bitString_pad {M : List Byte} {q : Nat} (hq : 0 < q) :
    bitString (pad M (8 * q)) =
      bitString M ++ [true] ++ List.replicate (8 * (q - M.length % q) - 2) false ++ [true] := by
  have hlt := Nat.mod_lt M.length hq
  by_cases h : M.length % q = q - 1
  · have hbits : bitString [0x81] = [true] ++ List.replicate 6 false ++ [true] := by decide
    rw [pad_of_last_byte hq h, bitString_append, hbits, show 8 * (q - M.length % q) - 2 = 6 by omega]
    simp only [List.append_assoc]
  · have hstart : bitString [0x01] = [true] ++ List.replicate 7 false := by decide
    have hend : bitString [0x80] = List.replicate 7 false ++ [true] := by decide
    have hcount : 8 * (q - M.length % q) - 2 = 7 + 8 * (q - M.length % q - 2) + 7 := by omega
    rw [pad_of_not_last_byte hq h, hcount, ← List.replicate_append_replicate, ← List.replicate_append_replicate]
    simp only [bitString_append, bitString_zeros, hstart, hend, List.append_assoc]

/-! ### The number of zeros -/

/-- From `L` bytes and two marker bits, that many zeros reach the end of the block `L` lies in. -/
theorem zeroCount_reaches_boundary (L : Nat) {q : Nat} (hq : 0 < q) :
    (8 * L + (8 * (q - L % q) - 2) + 2) % (8 * q) = 0 := by
  have hlt := Nat.mod_lt L hq
  have hL := Nat.div_add_mod L q
  have hsum : 8 * L + (8 * (q - L % q) - 2) + 2 = 8 * (q * (L / q + 1)) := by
    rw [Nat.mul_add q, Nat.mul_one]
    omega
  rw [hsum, ← Nat.mul_assoc, Nat.mul_mod_right]

/-- Fewer zeros end strictly inside that block. -/
theorem fewer_zeros_miss_boundary {L q j : Nat} (hj : j < 8 * (q - L % q) - 2) :
    (8 * L + j + 2) % (8 * q) ≠ 0 := by
  have hL := Nat.div_add_mod L q
  have hsum : 8 * L + j + 2 = 8 * q * (L / q) + (8 * (L % q) + j + 2) := by
    rw [Nat.mul_assoc]
    omega
  rw [hsum, Nat.mul_add_mod, Nat.mod_eq_of_lt (by omega)]
  omega

/-- Settles O33: padding completes the block the message ends in or adds a whole one, and the zeros of its bit string
end at the first multiple of r. -/
theorem paddingLaws : Obligations.PaddingLaws := by
  intro M r h8 hr
  obtain ⟨q, hq, rfl⟩ := exists_rateBytes h8 hr
  have hlt := Nat.mod_lt M.length hq
  have hM := Nat.div_add_mod M.length q
  rw [Nat.mul_div_cancel_left q (by decide), pad_length hq]
  refine ⟨Nat.mul_mod_right _ _, ?more, ?atMostOneBlock, take_pad hq, _, bitString_pad hq,
    zeroCount_reaches_boundary M.length hq, fun _ => fewer_zeros_miss_boundary⟩
  all_goals
    rw [Nat.mul_add, Nat.mul_one]
    omega

end Sys2Proof.Proofs
end

section
/-! Sponge control (43_sponge_control.md): INIT with and without an accepted configuration, and READ_REG. -/

namespace Sys2Proof.Proofs

open Sys2Proof.Machine

/-! ### Responses on the wire -/

/-- A response without data is its status code in the first of eight bytes (30_encoding.md R78). -/
theorem responseBytes_nil (st : Status) : responseBytes st [] = [BitVec.ofNat 8 st.code, 0, 0, 0, 0, 0, 0, 0] := by
  cases st <;> decide

/-- An OK response with a register's four bytes (43_sponge_control.md R173). -/
theorem responseBytes_wordBytes (v : Word) :
    responseBytes .ok (wordBytes v) = [0, 0, 0, 0, 4, 0, 0, 0] ++ wordBytes v := by
  rw [responseBytes, wordBytes_length]
  rfl

/-! ### Validation -/

/-- What INIT accepts (43_sponge_control.md R172), with the checks on the word size as one power of two. -/
theorem validate_eq_ok_iff_wordSize {r c n : Nat} : validate r c n = .ok ↔
    (r ≠ 0 ∧ c ≠ 0 ∧ n ≠ 0 ∧ r % 8 = 0 ∧ c % 8 = 0) ∧ ∃ l ≤ 6, r + c = 25 * 2 ^ l := by
  rw [validate_eq_ok]
  refine and_congr_right fun _ => ⟨fun ⟨h25, h64, hpow⟩ => ?_, fun ⟨l, hl, hb⟩ => ?_⟩
  · refine ⟨Nat.log2 ((r + c) / 25), ?_, by omega⟩
    rw [← hpow] at h64
    exact (Nat.pow_le_pow_iff_right (by decide)).mp (h64 : _ ≤ 2 ^ 6)
  · rw [hb, Nat.mul_div_cancel_left _ (by decide), Nat.log2_two_pow]
    exact ⟨Nat.mul_mod_right .., Nat.pow_le_pow_right (by decide) hl, rfl⟩

/-- The first two checks of 43_sponge_control.md R172 are those that fail with CONFIG_ERROR. -/
theorem validate_eq_configError {r c n : Nat} : validate r c n = .configError ↔
    r = 0 ∨ c = 0 ∨ n = 0 ∨ r % 8 ≠ 0 ∨ c % 8 ≠ 0 ∨ (r + c) % 25 ≠ 0 := by
  unfold validate
  split_ifs <;> simp <;> omega

/-- The derived values (00_scope.md R5) where the word size is a power of two. -/
theorem deriveConfig_of_wordSize {r c l : Nat} (h : r + c = 25 * 2 ^ l) (n : Nat) :
    deriveConfig r c n = { r := r, c := c, n := n, b := 25 * 2 ^ l, w := 2 ^ l, l := l, nr := 12 + 2 * l,
                           wmod := 2 ^ (2 ^ l) - 1, rr := r / 8 } := by
  simp only [deriveConfig, h, Nat.mul_div_cancel_left _ (by decide : 0 < 25), Nat.log2_two_pow]

/-! ### INIT -/

/-- Settles O34: validation accepts the operands, and the word size 2^l fixes every derived value. -/
theorem initStartsComputation : Obligations.InitStartsComputation := by
  intro s r c n l hr hc hn hr8 hc8 hb hl
  have hok : validate r.toNat c.toNat n.toNat = .ok :=
    validate_eq_ok_iff_wordSize.mpr ⟨⟨hr.ne', hc.ne', hn.ne', hr8, hc8⟩, l, hl, hb⟩
  rw [execInit_ok hok, deriveConfig_of_wordSize hb, zero_eq_replicate, responseBytes_nil]
  rfl

/-- A failed INIT by the status of its first failing check (60_exceptions.md R265). -/
theorem execInit_failed {r c n : Word} {st : Status} (hst : validate r.toNat c.toNat n.toNat = st) (hne : st ≠ .ok)
    (s : State) :
    exec (.init r c n) s = .next { s with
      phase := .unconfigured, cfg := none, lanes := Vector.replicate 25 0, buf := []
      lastStatus := st, errSeen := true, outbox := s.outbox ++ [BitVec.ofNat 8 st.code, 0, 0, 0, 0, 0, 0, 0] } := by
  rw [execInit_error (hst ▸ hne), hst, zero_eq_replicate, responseBytes_nil]

/-- Settles O35: the first two checks give CONFIG_ERROR; when they pass and validation does not accept, only
UNSUPPORTED_WORD_SIZE is left. -/
theorem initRejectsBadConfiguration : Obligations.InitRejectsBadConfiguration := by
  intro s r c n failed check12
  refine ⟨fun h => execInit_failed (validate_eq_configError.mpr h) (by decide) s, fun h hsize => ?_⟩
  have hok : validate r.toNat c.toNat n.toNat ≠ .ok := fun hv =>
    let ⟨_, l, hl, hb⟩ := validate_eq_ok_iff_wordSize.mp hv
    hsize l hl hb
  have hconfig : validate r.toNat c.toNat n.toNat ≠ .configError := mt validate_eq_configError.mp h
  have hsupport : validate r.toNat c.toNat n.toNat = .unsupportedWordSize :=
    ((validate_cases _ _ _).resolve_left hok).resolve_left hconfig
  exact execInit_failed hsupport (by decide) s

/-- Settles O36: accepted or not, INIT writes every field but the inbox, the outbox, which it extends, and the sticky
bit, which it keeps or sets. -/
theorem initForgetsThePast : Obligations.InitForgetsThePast := by
  intro r c n s t hinbox houtbox herr
  by_cases hok : validate r.toNat c.toNat n.toNat = .ok
  · rw [execInit_ok hok, execInit_ok hok, hinbox, houtbox, herr]
  · rw [execInit_error hok, execInit_error hok, hinbox, houtbox]

/-! ### READ_REG -/

theorem wordBytes_ofNat (v : Nat) : wordBytes (BitVec.ofNat 32 v) = leBytes 4 v := by
  rw [wordBytes, BitVec.toNat_ofNat]
  exact leBytes_mod 4 v

theorem statusRegister_eq_ofNat (s : State) : statusRegister s =
    BitVec.ofNat 32 (s.phase.code + 2 ^ 8 * s.lastStatus.code + 2 ^ 16 * s.errSeen.toNat) := by
  rw [← statusRegister_toNat, BitVec.ofNat_toNat, BitVec.setWidth_eq]

theorem configField_eq_ofNat (s : State) (field : SpongeConfig → Nat) :
    configField s field = BitVec.ofNat 32 ((s.cfg.map field).getD 0) := by
  unfold configField
  cases s.cfg <;> rfl

/-- The values of registers 0 to 6 as numbers (10_state.md R28 to R30). -/
def registerValues (s : State) : List Nat :=
  let field := fun f : SpongeConfig → Nat => (s.cfg.map f).getD 0
  [s.phase.code + 2 ^ 8 * s.lastStatus.code + 2 ^ 16 * s.errSeen.toNat, field (·.r), field (·.c), field (·.n),
    field (·.w), field (·.nr), 0x4B430001]

theorem readRegister_eq_ofNat {k : Nat} (hk : k ≤ 6) (s : State) :
    readRegister k s = BitVec.ofNat 32 ((registerValues s).getD k 0) :=
  match k, hk with
  | 0, _ => statusRegister_eq_ofNat s
  | 1, _ => configField_eq_ofNat s (·.r)
  | 2, _ => configField_eq_ofNat s (·.c)
  | 3, _ => configField_eq_ofNat s (·.n)
  | 4, _ => configField_eq_ofNat s (·.w)
  | 5, _ => configField_eq_ofNat s (·.nr)
  | 6, _ => rfl

/-- Settles O37: the response's data are the four bytes of the register's value as a number. -/
theorem readRegAnswersTheRegister : Obligations.ReadRegAnswersTheRegister := by
  intro s k hk field registers
  rw [execReadReg_ok hk, responseBytes_wordBytes, readRegister_eq_ofNat hk, wordBytes_ofNat, List.append_assoc]
  rfl

/-- Settles O38: READ_REG raises ILLEGAL_COMMAND, which leaves the sponge alone. -/
theorem readRegOfReservedNumber : Obligations.ReadRegOfReservedNumber := by
  intro s k hk
  rw [execReadReg_reserved hk, responseBytes_nil]
  rfl

end Sys2Proof.Proofs
end

section
/-! The absorber (44_sponge_absorber.md): what UPDATE absorbs and buffers, messages sent in chunks, and cores with other
batch sizes. -/

namespace Sys2Proof.Proofs

open Sys2Proof.Machine

/-! ### UPDATE -/

/-- UPDATE in ABSORBING (44_sponge_absorber.md R191). -/
theorem execUpdate_absorbing {s : State} {C : SpongeConfig} (hp : s.phase = .absorbing) (hC : s.cfg = some C)
    (chunk : List Byte) : exec (.update chunk) s = .next (updateEffect (superBlock C) C chunk s) :=
  inPhase_of_eq hp hC _

/-- UPDATE's effect field by field, with the bytes absorbed written as a multiple of the super-block. -/
theorem updateEffect_eq (sb : Nat) (C : SpongeConfig) (chunk : List Byte) (s : State) :
    updateEffect sb C chunk s = { s with
      lanes := absorbBlocks C ((s.buf ++ chunk).length / sb * sb / C.rr) s.lanes (s.buf ++ chunk)
      buf := (s.buf ++ chunk).drop ((s.buf ++ chunk).length / sb * sb)
      lastStatus := .ok
      outbox := s.outbox ++ [0, 0, 0, 0, 0, 0, 0, 0] } := by
  rw [Nat.div_mul_self_eq_mod_sub_self, updateEffect, respond_ok, responseBytes_nil]
  rfl

/-- UPDATE's response is OK (60_exceptions.md R266). -/
theorem updateEffect_errSeen (sb : Nat) (C : SpongeConfig) (chunk : List Byte) (s : State) :
    (updateEffect sb C chunk s).errSeen = s.errSeen := by
  rw [updateEffect_eq]

/-- Absorption block by block (44_sponge_absorber.md R191), each block the next rr bytes. -/
theorem absorbBlocks_eq_foldl (C : SpongeConfig) (count : Nat) (A : Lanes) (M : List Byte) :
    absorbBlocks C count A M =
      (List.range count).foldl (fun A j => absorbBlock C A ((M.drop (j * C.rr)).take C.rr)) A := by
  simp only [absorbBlocks, slice_block]

/-- Settles O39: UPDATE's effect with its blocks written out. -/
theorem updateAbsorbsWholeSuperBlocks : Obligations.UpdateAbsorbsWholeSuperBlocks := by
  intro s C chunk hp hC M SB L
  rw [execUpdate_absorbing hp hC, updateEffect_eq, absorbBlocks_eq_foldl]
  rfl

/-- Settles O40: below one super-block the largest multiple is 0, and no block is absorbed. -/
theorem shortUpdateOnlyBuffers : Obligations.ShortUpdateOnlyBuffers := by
  intro s C chunk hp hC hshort
  have hzero : (s.buf ++ chunk).length / superBlock C = 0 :=
    Nat.div_eq_of_lt (by rwa [List.length_append])
  rw [execUpdate_absorbing hp hC, updateEffect_eq, hzero, Nat.zero_mul, Nat.zero_div, absorbBlocks_zero,
    List.drop_zero]

/-- The widest super-block is that of r = 1592 and b = 1600 (44_sponge_absorber.md R192). -/
theorem superBlock_le {C : SpongeConfig} (hC : C.Valid) : superBlock C ≤ 318400 := by
  obtain ⟨hw, hb, hr, _, _, hrr, _⟩ := hC.arith
  have hmul : C.r * C.b ≤ 1592 * 1600 := Nat.mul_le_mul (by omega) (by omega)
  exact Nat.div_le_of_le_mul (hmul.trans (by decide))

/-- Settles O41: the rest is shorter than the super-block, and that is at most 318400 bytes. -/
theorem updateKeepsBufferBelowSuperBlock : Obligations.UpdateKeepsBufferBelowSuperBlock := by
  intro s t C chunk hp hcfg hC h
  rw [execUpdate_absorbing hp hcfg] at h
  cases h
  have hlt := updateEffect_buf_length (superBlock_multiple hC).1 C chunk s
  exact ⟨hlt, Nat.le_pred_of_lt hlt, Nat.le_pred_of_lt (hlt.trans_le (superBlock_le hC))⟩

/-! ### Messages in chunks -/

/-- UPDATE of each chunk and an empty DIGEST: each UPDATE leaves what pads and absorbs like the message so far, so
DIGEST's effect is that on the whole message (44_sponge_absorber.md R193). -/
theorem runCommands_updates_digest {C : SpongeConfig} (hC : C.Valid) (chunks : List (List Byte)) {s : State}
    (hp : s.phase = .absorbing) (hcfg : s.cfg = some C) :
    let tail := squeezeTail C (absorbPadded C s.lanes (s.buf ++ chunks.flatten))
    runCommands (chunks.map .update ++ [.digest []]) s = .next { s with
      phase := .squeezing, lanes := tail.1, buf := [], lastStatus := .ok
      outbox := s.outbox ++ List.replicate (8 * chunks.length) 0 ++ responseBytes .ok tail.2 } := by
  induction chunks generalizing s with
  | nil =>
    simp only [List.map_nil, List.nil_append, runCommands, execDigest_absorbing hp hcfg, List.flatten_nil,
      List.length_nil, Nat.mul_zero, List.replicate_zero, List.append_nil]
  | cons chunk chunks ih =>
    obtain ⟨_, _, hr, h0, _⟩ := hC.arith
    have hmessage := absorbPadded_updateEffect hr h0 (superBlock_multiple hC).2 chunk chunks.flatten s
    have hresponses : List.replicate (8 * (chunk :: chunks).length) 0 =
        responseBytes .ok [] ++ List.replicate (8 * chunks.length) 0 := by
      rw [List.length_cons, Nat.mul_succ, Nat.add_comm, ← List.replicate_append_replicate, responseBytes_nil]
      rfl
    rw [hresponses, ← List.append_assoc, List.flatten_cons, ← List.append_assoc s.buf, ← hmessage, List.map_cons,
      List.cons_append, runCommands, execUpdate_absorbing hp hcfg]
    refine (ih (s := updateEffect (superBlock C) C chunk s) hp hcfg).trans ?_
    rw [updateEffect_errSeen]
    rfl

/-- Settles O42: both runs end with DIGEST's effect on the whole message. -/
theorem chunkingDoesNotMatter : Obligations.ChunkingDoesNotMatter := by
  intro s C chunks hp hcfg hC _
  let tail := squeezeTail C (absorbPadded C s.lanes (s.buf ++ chunks.flatten))
  exact ⟨{ s with phase := .squeezing, lanes := tail.1, buf := [], lastStatus := .ok }, responseBytes .ok tail.2,
    execDigest_absorbing hp hcfg chunks.flatten, runCommands_updates_digest hC chunks hp hcfg⟩

/-! ### Batch sizes -/

/-- Lanes `A` and buffer `B` in place of those of `s` leave every later response as it is: DIGEST pads and absorbs the
same message whatever follows, and SQUEEZING has the same lanes (44_sponge_absorber.md R194). -/
structure Interchangeable (s : State) (A : Lanes) (B : List Byte) : Prop where
  configured : s.phase ≠ .unconfigured → ∃ C, s.cfg = some C ∧ C.Valid
  absorbing : s.phase = .absorbing → ∀ C, s.cfg = some C → ∀ more,
    absorbPadded C A (B ++ more) = absorbPadded C s.lanes (s.buf ++ more)
  squeezing : s.phase = .squeezing → A = s.lanes

/-- Both outcomes are next states that differ in interchangeable lanes and buffers alone. -/
def OutcomesAgree (o o' : Host.Outcome State Fault Refusal) : Prop :=
  ∃ u A B, o = .next u ∧ o' = .next { u with lanes := A, buf := B } ∧ Interchangeable u A B

theorem interchangeable_self {s : State} (hs : s.Inv) : Interchangeable s s.lanes s.buf where
  configured hne := by
    cases hp : s.phase with
    | unconfigured => exact absurd hp hne
    | absorbing =>
      obtain ⟨C, hcfg, hC, _⟩ := hs.absorbing hp
      exact ⟨C, hcfg, hC⟩
    | squeezing =>
      obtain ⟨C, hcfg, hC, _⟩ := hs.squeezing hp
      exact ⟨C, hcfg, hC⟩
  absorbing _ _ _ _ := rfl
  squeezing _ := rfl

/-- In SQUEEZING the buffer plays no part. -/
theorem agree_respond_of_squeezing {s : State} {C : SpongeConfig} (hp : s.phase = .squeezing)
    (hcfg : s.cfg = some C) (hC : C.Valid) (data B : List Byte) :
    OutcomesAgree (.next (respond false .ok data s)) (.next (respond false .ok data { s with buf := B })) :=
  ⟨_, s.lanes, B, rfl, rfl, fun _ => ⟨C, hcfg, hC⟩, fun habs => (nomatch hp.symm.trans habs), fun _ => rfl⟩

/-- INIT sets lanes and buffer, whatever they were. -/
theorem agree_init (s : State) (A : Lanes) (B : List Byte) (r c n : Word) :
    OutcomesAgree (exec (.init r c n) s) (exec (.init r c n) { s with lanes := A, buf := B }) := by
  by_cases hv : validate r.toNat c.toNat n.toNat = .ok
  · rw [execInit_ok hv, execInit_ok hv]
    exact ⟨_, _, _, rfl, rfl, fun _ => ⟨_, rfl, deriveConfig_valid hv (toNat_le_nMax n)⟩, fun _ _ _ _ => rfl,
      fun _ => rfl⟩
  · rw [execInit_error hv, execInit_error hv]
    exact ⟨_, _, _, rfl, rfl, fun hne => absurd rfl hne, fun _ _ _ _ => rfl, fun _ => rfl⟩

section Agree

variable {s : State} {A : Lanes} {B : List Byte} (h : Interchangeable s A B)
include h

/-- A response that shows neither lanes nor buffer. -/
theorem agree_respond (fromReadReg : Bool) (st : Status) (data : List Byte) :
    OutcomesAgree (.next (respond fromReadReg st data s))
      (.next (respond fromReadReg st data { s with lanes := A, buf := B })) :=
  ⟨_, A, B, rfl, rfl, h.configured, h.absorbing, h.squeezing⟩

/-- The phase check reads neither lanes nor buffer: commands agree where their effects do. -/
theorem agree_inPhase {p : Phase} (hp : p ≠ .unconfigured) {effect effect' : SpongeConfig → State}
    (heffect : ∀ C, s.phase = p → s.cfg = some C → C.Valid →
      OutcomesAgree (.next (effect C)) (.next (effect' C))) :
    OutcomesAgree (inPhase p s fun C => .next (effect C))
      (inPhase p { s with lanes := A, buf := B } fun C => .next (effect' C)) := by
  by_cases hphase : s.phase = p
  · obtain ⟨C, hcfg, hC⟩ := h.configured (hphase ▸ hp)
    rw [inPhase_of_eq hphase hcfg, inPhase_of_eq (s := { s with lanes := A, buf := B }) hphase hcfg]
    exact heffect C hphase hcfg hC
  · rw [inPhase_of_ne hphase, inPhase_of_ne (s := { s with lanes := A, buf := B }) hphase]
    exact agree_respond h false .sequenceError []

/-- A squeeze reads the lanes alone, and in SQUEEZING they are the same. -/
theorem agree_squeezing (data : SpongeConfig → Lanes → List Byte) (next : SpongeConfig → Lanes → Lanes) :
    OutcomesAgree
      (inPhase .squeezing s fun C => .next (respond false .ok (data C s.lanes) { s with lanes := next C s.lanes }))
      (inPhase .squeezing { s with lanes := A, buf := B } fun C =>
        .next (respond false .ok (data C A) { s with lanes := next C A, buf := B })) := by
  refine agree_inPhase h (by decide) fun C hp hcfg hC => ?_
  obtain rfl := h.squeezing hp
  exact agree_respond_of_squeezing (s := { s with lanes := next C s.lanes }) hp hcfg hC _ B

/-- DIGEST pads and absorbs the same message on both sides. -/
theorem agree_digest (last : List Byte) :
    OutcomesAgree (exec (.digest last) s) (exec (.digest last) { s with lanes := A, buf := B }) := by
  refine agree_inPhase h (by decide) fun C hp hcfg hC => ?_
  let tail := squeezeTail C (absorbPadded C s.lanes (s.buf ++ last))
  simp only [h.absorbing hp C hcfg last]
  exact agree_respond_of_squeezing (s := { s with phase := .squeezing, lanes := tail.1, buf := [] }) rfl hcfg hC
    tail.2 []

/-- No register shows lanes or buffer (10_state.md R28). -/
theorem agree_readReg (k : Word) :
    OutcomesAgree (exec (.readReg k) s) (exec (.readReg k) { s with lanes := A, buf := B }) := by
  by_cases hk : k.toNat ≤ 6
  · rw [execReadReg_ok hk, execReadReg_ok hk]
    exact ⟨_, A, B, rfl, rfl, h.configured, h.absorbing, h.squeezing⟩
  · rw [execReadReg_reserved (Nat.lt_of_not_le hk), execReadReg_reserved (Nat.lt_of_not_le hk)]
    exact ⟨_, A, B, rfl, rfl, h.configured, h.absorbing, h.squeezing⟩

section Batches

variable {sb sb' : SpongeConfig → Nat} (hsb : ∀ C : SpongeConfig, C.Valid → C.rr ∣ sb C)
  (hsb' : ∀ C : SpongeConfig, C.Valid → C.rr ∣ sb' C)
include hsb hsb'

/-- UPDATEs with two batch sizes: each leaves what pads and absorbs like its own message so far. -/
theorem agree_update (chunk : List Byte) :
    OutcomesAgree (execWithBatch sb (.update chunk) s)
      (execWithBatch sb' (.update chunk) { s with lanes := A, buf := B }) := by
  refine agree_inPhase h (by decide) fun C hp hcfg hC => ⟨_, _, _, rfl, rfl, ?configured, ?absorbing, ?squeezing⟩
  case configured => exact fun _ => ⟨C, hcfg, hC⟩
  case absorbing =>
    intro _ C' hcfg' more
    obtain rfl : C = C' := Option.some.inj (hcfg.symm.trans hcfg')
    obtain ⟨_, _, hr, h0, _⟩ := hC.arith
    have hself := absorbPadded_updateEffect hr h0 (hsb C hC) chunk more s
    have hother := absorbPadded_updateEffect hr h0 (hsb' C hC) chunk more { s with lanes := A, buf := B }
    rw [List.append_assoc] at hself hother
    exact hother.trans ((h.absorbing hp C hcfg (chunk ++ more)).trans hself.symm)
  case squeezing => exact fun habs => (nomatch hp.symm.trans habs)

/-- Two cores that differ in their batch sizes agree on every command. -/
theorem agree_execWithBatch (i : Instr) :
    OutcomesAgree (execWithBatch sb i s) (execWithBatch sb' i { s with lanes := A, buf := B }) := by
  cases i with
  | init r c n => exact agree_init s A B r c n
  | update chunk => exact agree_update h hsb hsb' chunk
  | digest last => exact agree_digest h last
  | squeeze =>
    exact agree_squeezing h (fun C A => (squeezeTail C (keccakF C.w A)).2) fun C A => (squeezeTail C (keccakF C.w A)).1
  | simpleSqueeze times =>
    exact agree_squeezing h (fun _ _ => []) fun C => keccakTimes C.w (zext32 times)
  | fastSqueeze times =>
    exact agree_squeezing h (fun _ _ => []) fun C => keccakTimes C.w (zext32 times * digestBlocks C)
  | readReg k => exact agree_readReg h k

/-- Two cores that differ in their batch sizes agree on every sequence of commands. -/
theorem agree_runWithBatch (commands : List Instr) :
    OutcomesAgree (runWithBatch sb commands s) (runWithBatch sb' commands { s with lanes := A, buf := B }) := by
  induction commands generalizing s A B with
  | nil => exact ⟨s, A, B, rfl, rfl, h⟩
  | cons i commands ih =>
    obtain ⟨u, A', B', hu, hu', hagree⟩ := agree_execWithBatch h hsb hsb' i
    simp only [runWithBatch, hu, hu']
    exact ih hagree

end Batches

end Agree

/-- Settles O43: the two runs end in states that differ in lanes and buffer alone. -/
theorem batchSizeIsUnobservable : Obligations.BatchSizeIsUnobservable := by
  intro sb sb' hsb hsb' s commands hs
  obtain ⟨t, A, B, ht, ht', _⟩ := agree_runWithBatch (interchangeable_self hs) (fun C hC => (hsb C hC).2)
    (fun C hC => (hsb' C hC).2) commands
  exact ⟨t, _, ht, ht', rfl, rfl, rfl, rfl, rfl⟩

end Sys2Proof.Proofs
end

section
/-! The squeezer (45_sponge_squeezer.md): the bits of one digest, DIGEST and the squeeze commands in their phase, and the
output stream that sequences of them read. -/

namespace Sys2Proof.Proofs

open Sys2Proof.Machine

/-! ### The bits of a digest -/

/-- Bit i is bit i mod 8 of byte i / 8 (20_memory.md R52). -/
theorem getElem?_bitString (M : List Byte) (i : Nat) :
    (bitString M)[i]? = M[i / 8]?.map fun b => b.getLsbD (i % 8) := by
  induction M generalizing i with
  | nil => rfl
  | cons b M ih =>
    have hcons : bitString (b :: M) = (List.range 8).map b.getLsbD ++ bitString M := rfl
    have hlen : ((List.range 8).map b.getLsbD).length = 8 := by simp
    rw [hcons]
    rcases Nat.lt_or_ge i 8 with hi | hi
    · rw [List.getElem?_append_left (by omega), Nat.div_eq_of_lt hi, Nat.mod_eq_of_lt hi]
      simp [List.getElem?_range hi]
    · have hdiv : i / 8 = (i - 8) / 8 + 1 := by omega
      have hmod : i % 8 = (i - 8) % 8 := by omega
      rw [List.getElem?_append_right (by omega), hlen, ih, hdiv, hmod, List.getElem?_cons_succ]

/-- The mask of the low `m` bits of a byte. -/
theorem getLsbD_and_lowBits (b : Byte) {m j : Nat} (hj : j < 8) :
    (b &&& BitVec.ofNat 8 (2 ^ m - 1)).getLsbD j = (b.getLsbD j && decide (j < m)) := by
  rw [BitVec.getLsbD_and, BitVec.getLsbD_ofNat, Nat.testBit_two_pow_sub_one, decide_eq_true hj, Bool.true_and]

/-- Of the bits of ⌈n/8⌉ bytes the mask keeps the first n and clears the rest (45_sponge_squeezer.md R211). -/
theorem getElem?_bitString_maskLastByte {n i : Nat} (out : List Byte) (hi : i < 8 * ceilDiv n 8) :
    (bitString (maskLastByte n out))[i]? = (bitString out)[i]?.map (· && decide (i < n)) := by
  have hceil : ceilDiv n 8 = (n + 7) / 8 := rfl
  simp only [getElem?_bitString, maskLastByte, Option.map_map, Function.comp_def]
  by_cases hn : n % 8 = 0
  · have hlt : i < n := by omega
    simp [hn, hlt]
  · rw [if_neg hn, List.getElem?_modify]
    by_cases hlast : ceilDiv n 8 - 1 = i / 8
    · have hiff : i % 8 < n % 8 ↔ i < n := by omega
      have hmask := fun b => getLsbD_and_lowBits b (m := n % 8) (Nat.mod_lt i (by decide : 0 < 8))
      simp only [hlast, if_true, Option.map_eq_map, Option.map_map, Function.comp_def, hmask, hiff]
    · have hlt : i < n := by omega
      simp [hlast, hlt]

theorem getElem?_bitString_take {k i : Nat} (M : List Byte) (hi : i < 8 * k) :
    (bitString (M.take k))[i]? = (bitString M)[i]? := by
  rw [getElem?_bitString, getElem?_bitString, List.getElem?_take_of_lt (by omega)]

theorem bitString_length (M : List Byte) : (bitString M).length = 8 * M.length := by
  simp [bitString, List.length_flatMap, Nat.mul_comm]

/-- The bits of the first output: the stream's first n bits, then zeros. -/
theorem getElem?_bitString_streamOutput (C : SpongeConfig) (A : Lanes) {i : Nat} (hi : i < 8 * digestLength C) :
    (bitString (streamOutput C A 0))[i]? =
      (bitString (outputStream C A (digestBlocks C)))[i]?.map (· && decide (i < C.n)) := by
  rw [streamOutput_zero, getElem?_bitString_maskLastByte _ hi, getElem?_bitString_take _ hi]

section Valid

variable {C : SpongeConfig} (hC : C.Valid)
include hC

/-- squeeze_tail returns the first output of the stream (45_sponge_squeezer.md R216). -/
theorem squeezeTail_eq_streamOutput (A : Lanes) :
    squeezeTail C A = (keccakTimes C.w (digestBlocks C - 1) A, streamOutput C A 0) := by
  rw [squeezeTail_eq hC, streamOutput_zero]

theorem streamOutput_length (A : Lanes) (q : Nat) : (streamOutput C A q).length = digestLength C := by
  obtain ⟨_, _, hle⟩ := digestBlocks_bounds hC
  rw [streamOutput_eq hC, streamOutput_zero, maskLastByte_length, List.length_take, outputStream_length hC]
  exact Nat.min_eq_left hle

/-- The first ⌈n/8⌉ bytes of the stream's blocks have all their bits. -/
theorem exists_bit_outputStream (A : Lanes) {i : Nat} (hi : i < 8 * digestLength C) :
    ∃ bit, (bitString (outputStream C A (digestBlocks C)))[i]? = some bit := by
  obtain ⟨_, _, hle⟩ := digestBlocks_bounds hC
  exact ⟨_, List.getElem?_eq_getElem (by rw [bitString_length, outputStream_length hC]; omega)⟩

end Valid

/-- Settles O44: squeeze_tail returns the stream's first output, whose bits are the blocks' up to n and 0 from there. -/
theorem squeezeTailExtractsOneDigest : Obligations.SqueezeTailExtractsOneDigest := by
  intro C A hC tail blocks
  have htail : tail = (keccakTimes C.w (digestBlocks C - 1) A, streamOutput C A 0) := squeezeTail_eq_streamOutput hC A
  have hblocks : blocks = outputStream C A (digestBlocks C) := rfl
  have hnn : digestLength C = (C.n + 7) / 8 := rfl
  rw [htail, hblocks]
  refine ⟨rfl, streamOutput_length hC A 0, fun i hi => ?first, fun i hn hi => ?rest⟩
  case first =>
    rw [getElem?_bitString_streamOutput C A (by omega)]
    simp [hi]
  case rest =>
    obtain ⟨bit, hbit⟩ := exists_bit_outputStream hC A hi
    rw [getElem?_bitString_streamOutput C A hi, hbit]
    simp [hn]

/-! ### The commands in their phase -/

/-- SQUEEZE's own permutation and the k - 1 of squeeze_tail are k (45_sponge_squeezer.md R213). -/
theorem keccakTimes_pred_keccakF {C : SpongeConfig} (hC : C.Valid) (A : Lanes) :
    keccakTimes C.w (digestBlocks C - 1) (keccakF C.w A) = keccakTimes C.w (digestBlocks C) A := by
  obtain ⟨hk, _, _⟩ := digestBlocks_bounds hC
  calc keccakTimes C.w (digestBlocks C - 1) (keccakF C.w A)
    _ = keccakTimes C.w (1 + (digestBlocks C - 1)) A := (keccakTimes_add C.w 1 _ A).symm
    _ = keccakTimes C.w (digestBlocks C) A := by rw [Nat.add_sub_cancel' hk]

section Commands

variable {s : State} {C : SpongeConfig} (hcfg : s.cfg = some C)
include hcfg

/-- DIGEST in ABSORBING, in terms of the stream (45_sponge_squeezer.md R212, R216). -/
theorem execDigest_stream (hp : s.phase = .absorbing) (hC : C.Valid) (last : List Byte) :
    exec (.digest last) s = .next { s with
      phase := .squeezing
      lanes := keccakTimes C.w (digestBlocks C - 1) (absorbPadded C s.lanes (s.buf ++ last))
      buf := []
      lastStatus := .ok
      outbox := s.outbox ++ responseBytes .ok (streamOutput C (absorbPadded C s.lanes (s.buf ++ last)) 0) } := by
  rw [execDigest_absorbing hp hcfg, squeezeTail_eq_streamOutput hC]

variable (hp : s.phase = .squeezing)
include hp

/-- SQUEEZE in SQUEEZING, in terms of the stream (45_sponge_squeezer.md R213, R216). -/
theorem execSqueeze_stream (hC : C.Valid) :
    exec .squeeze s = .next { s with
      lanes := keccakTimes C.w (digestBlocks C) s.lanes
      lastStatus := .ok
      outbox := s.outbox ++ responseBytes .ok (streamOutput C (keccakF C.w s.lanes) 0) } := by
  simp only [exec, execSqueeze, inPhase_of_eq hp hcfg, respond_ok, squeezeTail_eq_streamOutput hC,
    keccakTimes_pred_keccakF hC]

theorem execSimpleSqueeze_squeezing (times : Word) :
    exec (.simpleSqueeze times) s = .next { s with
      lanes := keccakTimes C.w times.toNat s.lanes
      lastStatus := .ok
      outbox := s.outbox ++ responseBytes .ok [] } := by
  simp only [exec, execSimpleSqueeze, inPhase_of_eq hp hcfg, respond_ok, zext32]

theorem execFastSqueeze_squeezing (times : Word) :
    exec (.fastSqueeze times) s = .next { s with
      lanes := keccakTimes C.w (times.toNat * digestBlocks C) s.lanes
      lastStatus := .ok
      outbox := s.outbox ++ responseBytes .ok [] } := by
  simp only [exec, execFastSqueeze, inPhase_of_eq hp hcfg, respond_ok, zext32]

end Commands

/-- An OK response with an output of the stream (30_encoding.md R78). -/
theorem responseBytes_streamOutput {C : SpongeConfig} (hC : C.Valid) (A : Lanes) (q : Nat) :
    responseBytes .ok (streamOutput C A q) = [0, 0, 0, 0] ++ leBytes 4 ((C.n + 7) / 8) ++ streamOutput C A q := by
  rw [responseBytes, streamOutput_length hC]
  rfl

/-- Settles O46: the padded blocks one by one, then squeeze_tail. -/
theorem digestPadsAbsorbsAndSqueezes : Obligations.DigestPadsAbsorbsAndSqueezes := by
  intro s C last hp hcfg hC P S0
  have hS0 : absorbPadded C s.lanes (s.buf ++ last) = S0 := absorbBlocks_eq_foldl C (P.length / C.rr) s.lanes P
  rw [execDigest_stream hcfg hp hC, hS0, responseBytes_streamOutput hC, ← List.append_assoc, ← List.append_assoc]
  rfl

/-- Settles O47: the permutation before squeeze_tail makes ⌈n/r⌉ of its ⌈n/r⌉ - 1. -/
theorem squeezePermutesAndExtracts : Obligations.SqueezePermutesAndExtracts := by
  intro s C hp hcfg hC
  rw [execSqueeze_stream hcfg hp hC, responseBytes_streamOutput hC, ← List.append_assoc, ← List.append_assoc]
  rfl

/-- Settles O48: `keccakTimes` is the iterate of `keccakF`, whatever the count. -/
theorem simpleSqueezePermutes : Obligations.SimpleSqueezePermutes := by
  intro s C times hp hcfg
  rw [execSimpleSqueeze_squeezing hcfg hp, responseBytes_nil]
  rfl

/-- Settles O49: `digestBlocks` is ⌈n/r⌉. -/
theorem fastSqueezePermutes : Obligations.FastSqueezePermutes := by
  intro s C times hp hcfg
  rw [execFastSqueeze_squeezing hcfg hp, responseBytes_nil]
  rfl

/-! ### The output stream -/

section Stream

variable {C : SpongeConfig} (hC : C.Valid)
include hC

/-- After DIGEST's k - 1 permutations the output of SQUEEZE j is that of the stream's number j + 1
(45_sponge_squeezer.md R216). -/
theorem streamOutput_after_digest (S0 : Lanes) (j : Nat) :
    streamOutput C (keccakF C.w (keccakTimes C.w (digestBlocks C - 1) S0)) j = streamOutput C S0 (j + 1) := by
  obtain ⟨hk, _, _⟩ := digestBlocks_bounds hC
  have hcount : digestBlocks C - 1 + 1 + j * digestBlocks C = (j + 1) * digestBlocks C := by
    rw [Nat.sub_add_cancel hk, Nat.succ_mul, Nat.add_comm]
  have hstep : keccakF C.w (keccakTimes C.w (digestBlocks C - 1) S0) = keccakTimes C.w (digestBlocks C - 1 + 1) S0 :=
    (keccakTimes_add C.w _ 1 S0).symm
  rw [hstep, streamOutput_eq hC _ j, ← keccakTimes_add, hcount, ← streamOutput_eq hC]

/-- The next SQUEEZE after `q` of them answers output `q` of the stream that starts one permutation on. -/
theorem streamOutput_after_squeezes (A : Lanes) (q : Nat) :
    streamOutput C (keccakF C.w (keccakTimes C.w (q * digestBlocks C) A)) 0 = streamOutput C (keccakF C.w A) q := by
  rw [streamOutput_eq hC (keccakF C.w A) q]
  congr 1
  exact (Function.Commute.self_iterate (keccakF C.w) _).eq A

/-- `q` SQUEEZEs answer the outputs 0 to q - 1 of the stream that starts one permutation on (45_sponge_squeezer.md
R213, R216). Only the last status tells none from one. -/
theorem runCommands_squeezes {s : State} (hp : s.phase = .squeezing) (hcfg : s.cfg = some C) (q : Nat) :
    ∃ st, runCommands (List.replicate q .squeeze) s = .next { s with
      lanes := keccakTimes C.w (q * digestBlocks C) s.lanes
      lastStatus := st
      outbox := s.outbox ++
        (List.range q).flatMap fun j => responseBytes .ok (streamOutput C (keccakF C.w s.lanes) j) } := by
  induction q with
  | zero => exact ⟨s.lastStatus, by simp [runCommands, keccakTimes]⟩
  | succ q ih =>
    obtain ⟨st, hrun⟩ := ih
    refine ⟨.ok, ?_⟩
    rw [List.replicate_succ', runCommands_append hrun, runCommands, execSqueeze_stream ?cfg ?phase hC]
    case cfg => exact hcfg
    case phase => exact hp
    simp only [runCommands, streamOutput_after_squeezes hC, ← keccakTimes_add, Nat.succ_mul, List.range_succ,
      List.flatMap_append, List.flatMap_singleton, List.append_assoc]

end Stream

/-- Settles O50: DIGEST answers output 0, and the SQUEEZEs go on from the lanes it leaves. -/
theorem squeezesReadTheOutputStream : Obligations.SqueezesReadTheOutputStream := by
  intro s C last q hp hcfg hC S0
  obtain ⟨hk, _, _⟩ := digestBlocks_bounds hC
  let t0 : State := { s with
    phase := .squeezing, lanes := keccakTimes C.w (digestBlocks C - 1) S0, buf := [], lastStatus := .ok
    outbox := s.outbox ++ responseBytes .ok (streamOutput C S0 0) }
  have hdigest : exec (.digest last) s = .next t0 := execDigest_stream hcfg hp hC last
  obtain ⟨st, hrun⟩ := runCommands_squeezes (s := t0) hC rfl hcfg q
  refine ⟨_, by rw [runCommands, hdigest]; exact hrun, ?lanes, ?outbox⟩
  case lanes =>
    have hcount : digestBlocks C - 1 + q * digestBlocks C = (q + 1) * digestBlocks C - 1 := by
      rw [Nat.succ_mul]
      omega
    exact (keccakTimes_add C.w _ _ S0).symm.trans (by rw [hcount]; rfl)
  case outbox =>
    simp only [t0, streamOutput_after_digest hC, ← responseBytes_streamOutput hC, List.range_succ_eq_map,
      List.flatMap_cons, List.flatMap_map, List.append_assoc]

/-! ### Digests in the outbox -/

/-- The data of a response stands behind the two words of its header (30_encoding.md R78). -/
theorem drop_responseBytes (out : List Byte) (st : Status) (data : List Byte) :
    (out ++ responseBytes st data).drop (out.length + 8) = data := by
  rw [responseBytes, ← List.append_assoc]
  exact List.drop_left' (by simp)

theorem responseBytes_length (st : Status) (data : List Byte) : (responseBytes st data).length = 8 + data.length := by
  simp [responseBytes, ← Nat.add_assoc]

/-- What one SQUEEZE leaves in the lanes, and its digest as the last bytes of the outbox: the lanes before it say both
(45_sponge_squeezer.md R213). -/
theorem runCommands_squeeze {s : State} {C : SpongeConfig} (hC : C.Valid) (hp : s.phase = .squeezing)
    (hcfg : s.cfg = some C) :
    ∃ t, runCommands [.squeeze] s = .next t ∧ t.lanes = keccakTimes C.w (digestBlocks C) s.lanes ∧
      t.outbox.drop (t.outbox.length - digestLength C) = streamOutput C (keccakF C.w s.lanes) 0 := by
  refine ⟨_, by rw [runCommands, execSqueeze_stream hcfg hp hC]; rfl, rfl, ?_⟩
  have hlen : s.outbox.length + (8 + digestLength C) - digestLength C = s.outbox.length + 8 := by omega
  simp only [List.length_append, responseBytes_length, streamOutput_length hC, hlen, drop_responseBytes]

/-- Settles O51: FAST_SQUEEZE t leaves the lanes of t SQUEEZEs, and the last SQUEEZE reads nothing else. -/
theorem fastSqueezeSkipsOutputs : Obligations.FastSqueezeSkipsOutputs := by
  intro s C times hp hcfg hC
  obtain ⟨st, hrun⟩ := runCommands_squeezes hC hp hcfg times.toNat
  obtain ⟨u, hu, hulanes, hudigest⟩ := runCommands_squeeze (s := { s with
    lanes := keccakTimes C.w (times.toNat * digestBlocks C) s.lanes
    lastStatus := st
    outbox := _ }) hC hp hcfg
  obtain ⟨t, ht, htlanes, htdigest⟩ := runCommands_squeeze (s := { s with
    lanes := keccakTimes C.w (times.toNat * digestBlocks C) s.lanes
    lastStatus := .ok
    outbox := s.outbox ++ responseBytes .ok [] }) hC hp hcfg
  refine ⟨t, u, ?_, ?_, htlanes.trans hulanes.symm, htdigest.trans hudigest.symm⟩
  · rw [runCommands, execFastSqueeze_squeezing hcfg hp]
    exact ht
  · rw [List.replicate_succ', runCommands_append hrun]
    exact hu

/-! ### Longer outputs -/

/-- The mask leaves the whole bytes as they are (45_sponge_squeezer.md R211). -/
theorem take_maskLastByte {n k : Nat} (hk : k ≤ n / 8) (out : List Byte) :
    (maskLastByte n out).take k = out.take k := by
  have hceil : ceilDiv n 8 = (n + 7) / 8 := rfl
  unfold maskLastByte
  split
  · rfl
  · rw [List.take_modify, List.modify_eq_self (by rw [List.length_take]; omega)]

theorem take_outputStream {C : SpongeConfig} (hC : C.Valid) (A : Lanes) {m m' k : Nat} (hm : m ≤ m')
    (hk : k ≤ m * C.rr) : (outputStream C A m').take k = (outputStream C A m).take k := by
  obtain ⟨j, rfl⟩ := Nat.exists_eq_add_of_le hm
  rw [outputStream_add, List.take_append_of_le_length (by rwa [outputStream_length hC])]

theorem wholeBytes_le_digestLength (C : SpongeConfig) : C.n / 8 ≤ digestLength C :=
  Nat.div_le_div_right (Nat.le_sub_one_of_lt (Nat.lt_add_of_pos_right (by decide)))

/-- The whole bytes of the first output are the stream's (45_sponge_squeezer.md R217). -/
theorem take_streamOutput (C : SpongeConfig) (A : Lanes) {k : Nat} (hk : k ≤ C.n / 8) :
    (streamOutput C A 0).take k = (outputStream C A (digestBlocks C)).take k := by
  have hle : k ≤ digestLength C := hk.trans (wholeBytes_le_digestLength C)
  rw [streamOutput_zero, take_maskLastByte hk, List.take_take, Nat.min_eq_left hle]

/-- Settles O52: both digests begin with the first blocks of one stream, which does not depend on n. -/
theorem digestStableUnderLongerOutput : Obligations.DigestStableUnderLongerOutput := by
  intro s t t' r c n n' last hp hcfg hC hC' hn h h'
  let C := deriveConfig r c n
  let C' := deriveConfig r c n'
  let S0 := absorbPadded C s.lanes (s.buf ++ last)
  cases h.symm.trans (execDigest_stream hcfg hp hC last)
  cases h'.symm.trans (execDigest_stream (s := { s with cfg := some C' }) rfl hp hC' last)
  obtain ⟨_, _, hle⟩ := digestBlocks_bounds hC
  have hwhole : n / 8 ≤ digestBlocks C * C.rr := (wholeBytes_le_digestLength C).trans hle
  have hblocks : digestBlocks C ≤ digestBlocks C' :=
    Nat.div_le_div_right (Nat.sub_le_sub_right (Nat.add_le_add_right hn.le r) 1)
  simp only [drop_responseBytes]
  calc (streamOutput C S0 0).take (n / 8)
    _ = (outputStream C S0 (digestBlocks C)).take (n / 8) := take_streamOutput C S0 le_rfl
    _ = (outputStream C S0 (digestBlocks C')).take (n / 8) := (take_outputStream hC S0 hblocks hwhole).symm
    _ = (streamOutput C' S0 0).take (n / 8) := (take_streamOutput C' S0 (Nat.div_le_div_right hn.le)).symm

end Sys2Proof.Proofs
end

section
/-! The host protocol (46_host_protocol.md): one iteration, INIT, DIGEST of the message and SQUEEZE_TO, ends with the
output it asks for. -/

namespace Sys2Proof.Proofs

open Sys2Proof.Machine

/-- The last digest is as long as one output of the configuration that INIT derives (46_host_protocol.md R241). -/
theorem lastDigest_eq_drop (r c n : Word) (t : State) : lastDigest n t =
    t.outbox.drop (t.outbox.length - digestLength (deriveConfig r.toNat c.toNat n.toNat)) := rfl

/-- An output of the stream that is answered last stands in the last bytes of the outbox (30_encoding.md R78). -/
theorem drop_last_streamOutput {C : SpongeConfig} (hC : C.Valid) (out : List Byte) (A : Lanes) (q : Nat) :
    (out ++ responseBytes .ok (streamOutput C A q)).drop
      ((out ++ responseBytes .ok (streamOutput C A q)).length - digestLength C) = streamOutput C A q := by
  have hlen : out.length + (8 + digestLength C) - digestLength C = out.length + 8 := by omega
  rw [List.length_append, responseBytes_length, streamOutput_length hC, hlen, drop_responseBytes]

/-- Pseudo-command HASH from any state: INIT forgets the sponge, so DIGEST absorbs the message alone into zero lanes
and answers output 0 (43_sponge_control.md R171, 45_sponge_squeezer.md R212). -/
theorem runCommands_pseudoHash {r c n : Word} (hv : validate r.toNat c.toNat n.toNat = .ok) (M : List Byte)
    (s : State) :
    let C := deriveConfig r.toNat c.toNat n.toNat
    let S0 := absorbPadded C Lanes.zero M
    ∃ t, runCommands (pseudoHash r c n M) s = .next t ∧ t.phase = .squeezing ∧ t.cfg = some C ∧
      t.lanes = keccakTimes C.w (digestBlocks C - 1) S0 ∧
      t.outbox.drop (t.outbox.length - digestLength C) = streamOutput C S0 0 := by
  intro C S0
  have hC : C.Valid := deriveConfig_valid hv (toNat_le_nMax n)
  rw [pseudoHash, runCommands, execInit_ok hv]
  simp only [runCommands]
  rw [execDigest_stream (C := C) rfl rfl hC]
  exact ⟨_, rfl, rfl, rfl, rfl, drop_last_streamOutput hC _ S0 0⟩

/-- SQUEEZE_TO j + 2 from SQUEEZING skips j outputs of the stream that starts one permutation on and answers the next
(30_encoding.md R80, 45_sponge_squeezer.md R216). The count j fits the word of FAST_SQUEEZE. -/
theorem runCommands_pseudoSqueezeTo {C : SpongeConfig} (hC : C.Valid) {s : State} (hp : s.phase = .squeezing)
    (hcfg : s.cfg = some C) {j : Nat} (hj : j < 2 ^ 32) :
    ∃ t, runCommands (pseudoSqueezeTo (j + 2)) s = .next t ∧
      t.outbox.drop (t.outbox.length - digestLength C) = streamOutput C (keccakF C.w s.lanes) j := by
  cases j with
  | zero =>
    obtain ⟨t, hrun, -, hdigest⟩ := runCommands_squeeze hC hp hcfg
    exact ⟨t, hrun, hdigest⟩
  | succ j =>
    have hcount : (BitVec.ofNat 32 (j + 1)).toNat = j + 1 := Nat.mod_eq_of_lt hj
    have hseq : pseudoSqueezeTo (j + 1 + 2) = [.fastSqueeze (BitVec.ofNat 32 (j + 1)), .squeeze] := by
      simp [pseudoSqueezeTo]
    obtain ⟨t, hrun, -, hdigest⟩ := runCommands_squeeze (s := { s with
      lanes := keccakTimes C.w ((j + 1) * digestBlocks C) s.lanes
      lastStatus := .ok
      outbox := s.outbox ++ responseBytes .ok [] }) hC hp hcfg
    refine ⟨t, ?_, hdigest.trans (streamOutput_after_squeezes hC s.lanes (j + 1))⟩
    rw [hseq, runCommands, execFastSqueeze_squeezing hcfg hp, hcount]
    exact hrun

/-- Settles O53: HASH answers output 0, and output j of the stream one permutation after it is the message's output
j + 1. -/
theorem iterationEndsWithJthOutput : Obligations.IterationEndsWithJthOutput := by
  intro s r c n j M hv hj hlt C
  have hC : C.Valid := deriveConfig_valid hv (toNat_le_nMax n)
  obtain ⟨u, hhash, hp, hcfg, hlanes, hdigest⟩ := runCommands_pseudoHash hv M s
  rw [runCommands_append hhash]
  match j, hj with
  | 1, _ => exact ⟨u, rfl, (lastDigest_eq_drop r c n u).trans hdigest⟩
  | j + 2, _ =>
    obtain ⟨t, hrun, houtput⟩ := runCommands_pseudoSqueezeTo hC hp hcfg (j := j) (by omega)
    rw [hlanes, streamOutput_after_digest hC] at houtput
    exact ⟨t, hrun, (lastDigest_eq_drop r c n t).trans houtput⟩

end Sys2Proof.Proofs
end

section
/-! Errors and reset: a core that never stops (60_exceptions.md R261), commands out of phase (R264), the sticky bit
(R266), who enters which phase (10_state.md R25), illegal frames (60_exceptions.md R263), and the two reset events
(70_reset_and_hazards.md R290, R291). -/

namespace Sys2Proof.Proofs

open Sys2Proof.Machine

/-! ### No command stops the core -/

/-- The phase check passes only where a configuration is active, or refuses the command with a status. -/
theorem exists_next_inPhase {p : Phase} {s : State} (hcfg : s.phase = p → ∃ C, s.cfg = some C)
    (effect : SpongeConfig → State) : ∃ t, inPhase p s (fun C => .next (effect C)) = .next t := by
  by_cases hp : s.phase = p
  · obtain ⟨C, hC⟩ := hcfg hp
    exact ⟨effect C, inPhase_of_eq hp hC _⟩
  · exact ⟨_, inPhase_of_ne hp _⟩

/-- The invariant gives every command the configuration its phase needs. -/
theorem exists_next_exec {s : State} (hs : s.Inv) (i : Instr) : ∃ t, exec i s = .next t := by
  have habsorbing (hp : s.phase = .absorbing) : ∃ C, s.cfg = some C := (hs.absorbing hp).imp fun _ h => h.1
  have hsqueezing (hp : s.phase = .squeezing) : ∃ C, s.cfg = some C := (hs.squeezing hp).imp fun _ h => h.1
  cases i with
  | init r c n =>
    by_cases hv : validate r.toNat c.toNat n.toNat = .ok
    · exact ⟨_, execInit_ok hv⟩
    · exact ⟨_, execInit_error hv⟩
  | update chunk => exact exists_next_inPhase habsorbing _
  | digest last => exact exists_next_inPhase habsorbing _
  | squeeze => exact exists_next_inPhase hsqueezing _
  | simpleSqueeze times => exact exists_next_inPhase hsqueezing _
  | fastSqueeze times => exact exists_next_inPhase hsqueezing _
  | readReg k =>
    by_cases hk : k.toNat ≤ 6
    · exact ⟨_, execReadReg_ok hk⟩
    · exact ⟨_, execReadReg_reserved (Nat.lt_of_not_le hk)⟩

/-- Settles O6: only a command could stop the step, and taking its frame off the input keeps the invariant under which
none does. -/
theorem invariantStatesNeverStop : Obligations.InvariantStatesNeverStop := by
  intro s hs
  unfold State.goesOn step
  cases fetch s.inbox with
  | run i later => exact exists_next_exec (inv_with_status hs hs.sticky later s.outbox) i
  | illegalFrame later => exact ⟨_, rfl⟩
  | reset later => exact ⟨_, rfl⟩
  | wait => exact ⟨_, rfl⟩

/-! ### Commands and the phase -/

/-- The phase check's refusal with its response written out (60_exceptions.md R264). -/
theorem inPhase_refused {p : Phase} {s : State} (hp : s.phase ≠ p)
    (effect : SpongeConfig → Host.Outcome State Fault Refusal) :
    inPhase p s effect = .next { s with
      lastStatus := .sequenceError, errSeen := true, outbox := s.outbox ++ [0x02, 0, 0, 0, 0, 0, 0, 0] } := by
  rw [inPhase_of_ne hp, raise_keeps _ _ (.inr rfl), responseBytes_nil]
  rfl

/-- Settles O54: each of the five commands is its effect behind the phase check. -/
theorem outOfPhaseCommandsChangeNothing : Obligations.OutOfPhaseCommandsChangeNothing := fun _ =>
  ⟨fun hp => ⟨fun _ => inPhase_refused hp _, fun _ => inPhase_refused hp _⟩,
    fun hp => ⟨inPhase_refused hp _, fun _ => inPhase_refused hp _, fun _ => inPhase_refused hp _⟩⟩

/-- Settles O57: of what a command can do, only the two outcomes of INIT and DIGEST in ABSORBING write the phase. -/
theorem phaseTransitions : Obligations.PhaseTransitions := by
  intro i s t h hne
  rcases exec_cases h with ⟨r, c, n, rfl, _, rfl⟩ | ⟨r, c, n, rfl, st, _, rfl⟩ | ⟨k, _, _, rfl⟩ | ⟨st, _, rfl⟩ |
    ⟨C, _, hp, ⟨chunk, _, rfl⟩ | ⟨last, rfl, rfl⟩⟩ | ⟨C, _, _, ⟨_, rfl⟩ | ⟨times, m, _, rfl⟩⟩
  case inl => exact ⟨fun _ => ⟨r, c, n, rfl⟩, nofun, nofun⟩
  case inr.inl => exact ⟨nofun, nofun, fun _ => ⟨r, c, n, rfl⟩⟩
  case inr.inr.inr.inr.inl.inr => exact ⟨nofun, fun _ => ⟨hp, last, rfl⟩, nofun⟩
  all_goals exact absurd rfl hne

/-! ### The sticky bit -/

/-- Settles O56: a command's response and an illegal frame's only ever set the bit, and no reset is at the input. -/
theorem onlyResetClearsErrSeen : Obligations.OnlyResetClearsErrSeen := by
  intro s t hbytes h herr
  rcases step_cases h with ⟨i, later, _, hexec⟩ | ⟨later, _, rfl⟩ | ⟨later, hfetch, _⟩ | ⟨_, rfl⟩
  · obtain ⟨st, _, _, _, _, _, hsticky, _⟩ := everyCommandRespondsOnce _ _ _ hexec
    simp [hsticky, herr]
  · rw [raise_keeps _ _ (.inl rfl)]
  · obtain ⟨e, hmem, hreset⟩ := reset_mem_of_fetch hfetch
    obtain ⟨b, rfl⟩ := hbytes e hmem
    exact absurd rfl (hreset b)
  · exact herr

/-! ### Illegal frames -/

/-- What arrives behind an illegal frame is left over (30_encoding.md R77). -/
theorem decode_append_of_illegal {bs : List Byte} {why : IllegalHeader} (h : decode bs = .illegal why [])
    (more : List Byte) : decode (bs ++ more) = .illegal why more := by
  rw [readsFront_decode _ _ (by simp [h]), h]
  rfl

/-- The fetch of an illegal frame leaves what stands behind it, unless a reset abandons its rejection. -/
theorem fetch_illegalFrame {bs : List Byte} {why : IllegalHeader} {later : List InEvent}
    (h : decode bs = .illegal why [])
    (hlater : ∀ (unread : List Byte) (after : List InEvent),
      later ≠ unread.map .byte ++ .resetMidCommand unread.length :: after) :
    fetch (bs.map .byte ++ later) = .illegalFrame later := by
  simp only [fetch, splitBytes_bytes, decode_append_of_illegal h, abandoned_eq_none hlater, splitBytes_join]

/-- Settles O20: the fetch takes the illegal frame alone off the input, and ILLEGAL_COMMAND leaves the sponge as it
is. -/
theorem stepRejectsIllegalFrame : Obligations.StepRejectsIllegalFrame := by
  intro s why bs later hdecode hinbox hlater
  rw [step, hinbox, fetch_illegalFrame hdecode hlater]
  simp only [raise_keeps _ _ (.inl rfl), responseBytes_nil]
  rfl

/-! ### Reset -/

theorem splitBytes_before_reset {e : InEvent} (he : ∀ b, e ≠ .byte b) (bs : List Byte) (later : List InEvent) :
    splitBytes (bs.map .byte ++ e :: later) = (bs, e :: later) := by
  cases e with
  | byte b => exact absurd rfl (he b)
  | reset => simp [splitBytes]
  | resetMidCommand unread => simp [splitBytes]

/-- A reset discards the part of a frame that stands before it (70_reset_and_hazards.md R290). -/
theorem fetch_reset_of_incomplete {bs : List Byte} (h : decode bs = .incomplete) {e : InEvent}
    (he : ∀ b, e ≠ .byte b) (later : List InEvent) : fetch (bs.map .byte ++ e :: later) = .reset later := by
  simp only [fetch, splitBytes_before_reset he, h]

/-- What arrives behind the frame of a command is left over (30_encoding.md R77). -/
theorem decode_append_of_frame {bs : List Byte} {i : Instr} (h : decode bs = .frame i []) (more : List Byte) :
    decode (bs ++ more) = .frame i more := by
  rw [readsFront_decode _ _ (by simp [h]), h]
  rfl

/-- A reset that names the bytes unread behind a whole frame abandons the frame (70_reset_and_hazards.md R291). -/
theorem fetch_reset_of_running {bs : List Byte}
    (h : (∃ i, decode bs = .frame i []) ∨ ∃ why, decode bs = .illegal why []) (unread : List Byte)
    (later : List InEvent) :
    fetch ((bs ++ unread).map .byte ++ .resetMidCommand unread.length :: later) = .reset later := by
  have hsplit := splitBytes_before_reset (e := .resetMidCommand unread.length) nofun (bs ++ unread) later
  have habandoned : abandoned unread.length (.resetMidCommand unread.length :: later) = some later :=
    abandoned_eq_some.mpr rfl
  rcases h with ⟨i, h⟩ | ⟨why, h⟩
  · simp only [fetch, hsplit, decode_append_of_frame h, habandoned]
  · simp only [fetch, hsplit, decode_append_of_illegal h, habandoned]

/-- A fetched reset sets the reset state; the streams stay the host's (70_reset_and_hazards.md R290). -/
theorem step_of_fetch_reset {s : State} {later : List InEvent} (h : fetch s.inbox = .reset later) :
    step s = .next { State.reset with inbox := later, outbox := s.outbox } := by
  rw [step, h]
  rfl

/-- Settles O22: behind a part of a frame either reset event is fetched. -/
theorem resetDiscardsPartialFrame : Obligations.ResetDiscardsPartialFrame := by
  intro s bs e later hdecode he hinbox
  have hreset : ∀ b, e ≠ .byte b := by rcases he with rfl | ⟨unread, rfl⟩ <;> exact nofun
  exact step_of_fetch_reset (hinbox ▸ fetch_reset_of_incomplete hdecode hreset later)

/-- Settles O23: the reset is fetched in place of the command's frame. -/
theorem runningCommandIsAbandonedByReset : Obligations.RunningCommandIsAbandonedByReset := by
  intro s bs unread later hdecode hinbox
  rw [← List.map_append] at hinbox
  exact step_of_fetch_reset (hinbox ▸ fetch_reset_of_running hdecode unread later)

end Sys2Proof.Proofs
end
